-- ==== Sys2Proof/Word.lean ====
section
/-! DEFINITION. The word types of NQR-CORE. Rule R9: bit 0 is the least significant bit of every register,
field and value; rule R10: every operand and result is unsigned. -/

namespace Sys2Proof

/-- A 32-bit bus or register word (R19, R36). -/
abbrev Word := BitVec 32

/-- The 64 bits of SCORE, an IEEE 754 binary64 pattern (R25). -/
abbrev Bits64 := BitVec 64

/-- `zext_32(v)` of R10: `v` placed in a 32-bit field. R10 defines it only for `v < 2^32`; every use below is
within that range. -/
abbrev zext32 (v : Nat) : Word := BitVec.ofNat 32 v

end Sys2Proof
end

