-- ==== Sys2Proof/Machine/Gf2.lean ====
section
/-! DEFINITION. GF(2) polynomial arithmetic on naturals: `bitLength` (R64) and `DIVREM` (R65). -/

namespace Sys2Proof.Machine

/-- `bitLength(v)` (R64): the 1-indexed position of the most significant set bit, 0 for 0. -/
def bitLength (v : Nat) : Nat := if v = 0 then 0 else Nat.log2 v + 1

/-- One iteration of the loop of R65, for a working value at least as long as `g`. -/
def divremStep (w g : Nat) : Nat := w ^^^ (g <<< (bitLength w - bitLength g))

/-- The loop of R65 on working value `w`, with at most `fuel` iterations. -/
def divremLoop (g : Nat) : Nat → Nat → Nat
  | 0, w => w
  | fuel + 1, w => if bitLength g ≤ bitLength w then divremLoop g fuel (divremStep w g) else w

/-- `DIVREM(d, g)` (R65). Each iteration shortens the working value (R66), so `bitLength d` iterations are enough
for the loop to end by itself when `g > 0` (notes/assumptions/21.md). -/
def divrem (d g : Nat) : Nat := divremLoop g (bitLength d) d

/-- How many iterations the loop of R65 makes, counted up to `fuel`. -/
def divremCount (g : Nat) : Nat → Nat → Nat
  | 0, _ => 0
  | fuel + 1, w => if bitLength g ≤ bitLength w then divremCount g fuel (divremStep w g) + 1 else 0

/-- The number of iterations of `DIVREM(d, g)` (R66, R109). No rule depends on it. -/
def divremIterations (d g : Nat) : Nat := divremCount g (bitLength d) d

/-- Carry-less multiplication `q ⊗ g` of R67: the XOR of `g << i` over the set bits `i` of `q`, from the lowest
`fuel` bits. -/
def clmulLoop (g : Nat) : Nat → Nat → Nat
  | 0, _ => 0
  | fuel + 1, q => (if q % 2 = 1 then g else 0) ^^^ (2 * clmulLoop g fuel (q / 2))

/-- `q ⊗ g` (R67). -/
def clmul (q g : Nat) : Nat := clmulLoop g (bitLength q) q

end Sys2Proof.Machine
end

