-- ==== Sys2Proof/Syntax.lean ====
section
/-! DEFINITION. The commands of NQR-CORE, one constructor per row of spec/opcode_table.json (R50), and the
abstract syntax of the assembler notation of R58 and R59. -/

namespace Sys2Proof

/-- The six commands. `absent` is the ABSENT bit of the CTRL word (R49): it may be set with every command
(R50), is meaningful for SYMSIZE only, and makes the others raise `PF_ABSENT` (R54). No command has a register
or immediate field (R49, R51). -/
inductive Instr
  /-- SYMSIZE, `symbolSize(version)`, OPC 0x01 (R61). -/
  | symsize (absent : Bool)
  /-- TOTALCW, `totalCodewords(version)`, OPC 0x02 (R63). -/
  | totalcw (absent : Bool)
  /-- BITLEN, `bitLength(value)`, OPC 0x03 (R68). -/
  | bitlen (absent : Bool)
  /-- FMTENC, `encodeFormatInfo(data)`, OPC 0x04 (R69). -/
  | fmtenc (absent : Bool)
  /-- VERENC, `encodeVersionInfo(data)`, OPC 0x05 (R70). -/
  | verenc (absent : Bool)
  /-- EVAL, `evaluate(matrix)`, OPC 0x06 (R71). -/
  | eval (absent : Bool)
deriving DecidableEq, Repr

/-- The ABSENT bit a command carries. -/
def Instr.absentBit : Instr → Bool
  | .symsize a => a
  | .totalcw a => a
  | .bitlen a => a
  | .fmtenc a => a
  | .verenc a => a
  | .eval a => a

/-- The mnemonics of the assembler notation (R58). -/
inductive Mnemonic
  | symsize | totalcw | bitlen | fmtenc | verenc | eval
deriving DecidableEq, Repr

/-- The operand forms of R58: a literal (decimal, hexadecimal or binary: one natural number), `-`, or nothing. -/
inductive AsmOperand
  | literal (v : Nat)
  | dash
  | nothing
deriving DecidableEq, Repr

/-- One assembler line: `MNEMONIC operand` (R58), or the pseudo-instruction `FMTINFO ecl, mask` (R59). -/
inductive AsmLine
  | command (m : Mnemonic) (o : AsmOperand)
  | fmtinfo (ecl mask : Nat)
deriving DecidableEq, Repr

end Sys2Proof
end

