-- ==== Sys2Proof/Decode.lean ====
section
/-! DEFINITION. The decoder of CTRL words (R52), total over all `2^32` words, and the encoder (R49, R50). -/

namespace Sys2Proof

/-- Why a CTRL word spells no command. Either way R52 gives ILLEGAL. -/
inductive Illegal
  /-- `w[31:9]` is not 0 (R53). -/
  | reservedBits
  /-- OPC is outside 0x01..0x06 (R53). -/
  | unknownOpcode
deriving DecidableEq, Repr

/-- What a CTRL word decodes to: a command, or ILLEGAL by name (R52). -/
inductive Decoded
  | command (i : Instr)
  | illegal (why : Illegal)
deriving DecidableEq, Repr

/-- OPC, bits 7:0 (R49). -/
def opcField (w : Word) : BitVec 8 := w.extractLsb' 0 8

/-- ABSENT, bit 8 (R49). -/
def absentField (w : Word) : Bool := w.getLsbD 8

/-- RSVD, bits 31:9 (R49). -/
def rsvdField (w : Word) : BitVec 23 := w.extractLsb' 9 23

/-- `decode(w)` of R52. -/
def decode (w : Word) : Decoded :=
  if rsvdField w ≠ 0#23 then .illegal .reservedBits
  else match (opcField w).toNat with
    | 0x01 => .command (.symsize (absentField w))
    | 0x02 => .command (.totalcw (absentField w))
    | 0x03 => .command (.bitlen (absentField w))
    | 0x04 => .command (.fmtenc (absentField w))
    | 0x05 => .command (.verenc (absentField w))
    | 0x06 => .command (.eval (absentField w))
    | _ => .illegal .unknownOpcode

/-- The opcode number of each command (R50). -/
def opcOf : Instr → BitVec 8
  | .symsize _ => 0x01#8
  | .totalcw _ => 0x02#8
  | .bitlen _ => 0x03#8
  | .fmtenc _ => 0x04#8
  | .verenc _ => 0x05#8
  | .eval _ => 0x06#8

/-- A CTRL word from its three fields, RSVD at the top (R49). -/
def ctrlWord (rsvd : BitVec 23) (absent : Bool) (opc : BitVec 8) : Word :=
  rsvd ++ BitVec.ofBool absent ++ opc

/-- The CTRL word of a command: RSVD is 0 (R49, R50). -/
def encode (i : Instr) : Word := ctrlWord 0#23 i.absentBit (opcOf i)

/-- The decoder on an instruction numbered as spec/opcode_table.json numbers its bits. A CTRL word is one
32-bit write whose bit `i` is register bit `i` (R36), so the table's numbering is the word's own. A value of more
than 32 bits is no CTRL word. -/
def decodeTableWord (nbits w : Nat) : Option Instr :=
  let bits := w % 2 ^ nbits
  if bits < 2 ^ 32 then
    match decode (BitVec.ofNat 32 bits) with
    | .command i => some i
    | .illegal _ => none
  else none

end Sys2Proof
end

