-- ==== Sys2Proof/Config.lean ====
section
/-! DEFINITION. The OPEN parameters of R7: what a platform fixes for an instance and no step changes. They are
an argument of the model: every state carries them (`State.params`), so a statement about every state holds for
every setting. The parameters with a default (G15, G18, G15_MASK, CW_TABLE) are ROM: Machine/Rom.lean. -/

namespace Sys2Proof.Config

/-- `BAL_DIV` (R7, R75, 90_conflicts.md C5): the rounding sequence of the rule-4 quotient. -/
inductive BalDiv
  /-- Two rounded divisions by `n`, the default. -/
  | successive
  /-- One rounded division by `n*n`. -/
  | single
deriving DecidableEq, Repr

/-- The OPEN parameters of one instance (R7, 92_eei_decisions.md). `NQR_INSTANCES` is the length of a platform's
list of instances (Machine/Platform.lean). -/
structure Params where
  /-- `BASE / 0x20`. R34: `BASE` must be a multiple of 0x20, so the parameter is held as that quotient and no
  other `BASE` can be written. -/
  baseBlock : Nat
  /-- `BAL_DIV`. -/
  balDiv : BalDiv
deriving DecidableEq, Repr

/-- `BASE`: the host bus address of the register window (R7, R34). -/
def Params.base (p : Params) : Nat := 0x20 * p.baseBlock

/-- The parameters `State.reset` carries. `BAL_DIV = successive` is R7's default; `BASE = 0` is a DESIGN CHOICE
(notes/assumptions/7.md): the platform chooses it. -/
def Params.default : Params := { baseBlock := 0, balDiv := .successive }

end Sys2Proof.Config
end

