-- ==== Sys2Proof/Machine/State.lean ====
section
/-! DEFINITION. The state of one NQR-CORE instance, its HOST and the platform's reset line, as plain data. -/

namespace Sys2Proof.Machine

/-- The faults of R84, which FAULTS records (R28); `faultNumber` (Machine/Ops.lean) gives each its code. Recording one is a NEXT state, not a stop: the spec's
"model fault" (R85, R86). -/
inductive FaultCode
  /-- 0x01: HOST write to ARG or CTRL while BUSY = 1. -/
  | hfBusyWrite
  /-- 0x02: HOST read of RESULT or SCORE while BUSY = 1. -/
  | hfBusyRead
  /-- 0x03: HOST read of a register unwritten since reset. -/
  | hfUnwritten
  /-- 0x10: ABSENT = 1 on a command other than SYMSIZE. -/
  | pfAbsent
  /-- 0x11: the command needs ARG and ARG was unwritten at its CTRL write. -/
  | pfUnwrittenArg
  /-- 0x12: TOTALCW outside [1,40]. -/
  | pfVersion
  /-- 0x13: FMTENC data of 32 or more. -/
  | pfFmtData
  /-- 0x14: VERENC data outside [7,40]. -/
  | pfVerData
  /-- 0x15: EVAL with MC = 0. -/
  | pfMatrix
deriving DecidableEq, Repr

/-- STATUS (R22): four flags; bits 31:4 are reserved and read 0, so they are no state. -/
structure Status where
  busy : Bool
  done : Bool
  invarg : Bool
  illop : Bool
deriving DecidableEq, Repr

/-- The latched command (R26). `arg = none` when ARG was unwritten at the CTRL write. -/
structure Pend where
  opc : BitVec 8
  absent : Bool
  rsvd : BitVec 23
  arg : Option Word
deriving DecidableEq, Repr

/-- MATRIX, what the HOST drives on the matrix port (R29): the module count `MC` and one bit per module, dark
= true, row by row. The vectors have exactly `n` rows of `n` modules, so every value is a matrix of R29 and equal
ports are equal data. -/
structure PortMatrix where
  n : Fin 256
  modules : Vector (Vector Bool n) n
deriving DecidableEq, Repr

/-- The width of a HOST bus access (R35). -/
inductive Width
  | byte | half | word | double
deriving DecidableEq, Repr

/-- What a HOST bus access does. -/
inductive AccessKind
  | read
  | write (v : Word)
deriving DecidableEq, Repr

/-- One bus access (R35): who issues it (`fromOwner`: the one HOST that owns the instance, R42), how wide it is,
its bus address and what it does. -/
structure Access where
  fromOwner : Bool
  width : Width
  addr : Nat
  kind : AccessKind
deriving DecidableEq, Repr

/-- One operation of the HOST (R15, R58): a bus access (`wr`, `rd`), `poll` (read STATUS until DONE = 1), or
presenting a matrix on the port (R29, R41, R101). -/
inductive HostMove
  | access (a : Access)
  | poll
  | present (m : PortMatrix)
deriving DecidableEq, Repr

/-- Who acts in a step (R15, R43, R99): the HOST takes its next operation, the CORE performs the latched
command, or the platform asserts reset. -/
inductive Turn
  | host
  | core
  | reset
deriving DecidableEq, Repr

/-- The whole machine. The first nine fields are the spec's; `hostStopped` is the HOST's having stopped on an
`HF_*` fault (R86); `script`, `turns` and `reads` are the MODEL's own (notes/assumptions/2.md, 3.md): the HOST's
operations still to come, who acts in the coming steps, and what the HOST's reads returned. -/
structure State where
  /-- The OPEN parameters of this instance (R7); no step changes them. -/
  params : Config.Params
  /-- ARG, 32 bits; `none` = unwritten (R19, R20). -/
  arg : Option Word
  /-- STATUS (R22). -/
  status : Status
  /-- RESULT, 32 bits; `none` = unwritten (R19, R24). -/
  result : Option Word
  /-- SCORE, 64 bits; `none` = unwritten (R19, R25). -/
  score : Option Bits64
  /-- PEND, the latched command (R26). -/
  pend : Option Pend
  /-- FAULTS, the fault record, oldest first (R28). -/
  faults : List FaultCode
  /-- MATRIX, the HOST's matrix port (R29). -/
  matrix : PortMatrix
  /-- The HOST has stopped on an `HF_*` fault (R86). -/
  hostStopped : Bool
  /-- The HOST's operations still to come, in program order. -/
  script : List HostMove
  /-- Who acts in the coming steps; when empty, the CORE acts if it can, else the HOST. -/
  turns : List Turn
  /-- The values the HOST's reads returned, oldest first. -/
  reads : List Word
deriving DecidableEq, Repr

/-- Why the machine as a whole has no step. NQR-CORE takes no traps (R88), so none of these is raised by a
command. -/
inductive Fault
  /-- Raised by `step` when the CORE is idle and the HOST's next operation is an access that is not admitted:
  the HOST is stuck there (R35). Safe: the hardware's response is unspecified. -/
  | accessNotAdmitted
  /-- Raised by `step` when the CORE is idle and the HOST has stopped on an `HF_*` fault (R86). Safe: no run goes
  on from there. -/
  | hostStopped
  /-- Raised by `step` when BUSY = 1 and PEND = none, which R26 excludes. Safe: no run reaches such a state. -/
  | noLatchedCommand
deriving DecidableEq, Repr

/-- Why an instruction has no meaning. -/
inductive Refusal
  /-- Raised by an arm of `exec` whose instruction has no meaning yet. No arm does. Safe. -/
  | notModelled (mnemonic : String)
deriving DecidableEq, Repr

/-- STATUS after reset, `0x00000000` (R32). -/
def Status.reset : Status := { busy := false, done := false, invarg := false, illop := false }

/-- A port that shows no module, MC = 0. Reset gives the port no value (R32, U26); this is what `State.reset`
shows, a DESIGN CHOICE (notes/assumptions/10.md) that no statement rests on. -/
def PortMatrix.empty : PortMatrix := { n := 0, modules := #v[] }

/-- The state after the power-on reset that starts a run (R32, R99), for a platform with parameters `p` whose
HOST drives `m` on the port, is to run `script`, and is interleaved as `turns` says. -/
def State.powerOn (p : Config.Params) (m : PortMatrix) (script : List HostMove) (turns : List Turn) : State :=
  { params := p, arg := none, status := Status.reset, result := none, score := none, pend := none,
    faults := [], matrix := m, hostStopped := false, script := script, turns := turns, reads := [] }

/-- The machine right after the power-on reset, with nothing placed: R32's values, the default parameters, and a
HOST with nothing to do. -/
def State.reset : State := State.powerOn Config.Params.default PortMatrix.empty [] []

end Sys2Proof.Machine
end

