-- ==== Sys2Proof/Machine/Flags.lean ====
section
/-! DEFINITION. STATUS: its word (R22) and every change of its flags (R53, R55, R56, R61). -/

namespace Sys2Proof.Machine

/-- STATUS as the HOST reads it: BUSY bit 0, DONE bit 1, INVARG bit 2, ILLOP bit 3, bits 31:4 zero (R22). -/
def statusWord (st : Status) : Word :=
  0#28 ++ BitVec.ofBool st.illop ++ BitVec.ofBool st.invarg ++ BitVec.ofBool st.done ++ BitVec.ofBool st.busy

/-- What the command start writes (R55): BUSY ← 1; DONE, INVARG, ILLOP ← 0. -/
def statusStarted : Status := { busy := true, done := false, invarg := false, illop := false }

/-- The completion of R56: BUSY ← 0, DONE ← 1. -/
def statusCompleted (st : Status) : Status := { st with busy := false, done := true }

/-- `STATUS.INVARG <- b` (R61). -/
def statusInvarg (b : Bool) (st : Status) : Status := { st with invarg := b }

/-- `STATUS.ILLOP <- 1` (R53). -/
def statusIllop (st : Status) : Status := { st with illop := true }

end Sys2Proof.Machine
end

