-- ==== Sys2Proof/Machine/Ops.lean ====
section
/-! DEFINITION. The named operations over the registers: register writes, command start, completion, recording a
fault, reset. Each names all it changes; everything else is kept (R31). -/

namespace Sys2Proof.Machine

/-- `REG(ARG) <- v` (R20). -/
def writeArg (v : Word) (s : State) : State := { s with arg := some v }

/-- `REG(RESULT) <- v` (R24). -/
def writeResult (v : Word) (s : State) : State := { s with result := some v }

/-- `REG(SCORE) <- b` (R25). -/
def writeScore (b : Bits64) (s : State) : State := { s with score := some b }

/-- `STATUS.INVARG <- b` (R61). -/
def writeInvarg (b : Bool) (s : State) : State := { s with status := statusInvarg b s.status }

/-- `STATUS.ILLOP <- 1` (R53). -/
def writeIllop (s : State) : State := { s with status := statusIllop s.status }

/-- The completion of `perform` (R56): PEND ← none, BUSY ← 0, DONE ← 1. -/
def complete (s : State) : State := { s with pend := none, status := statusCompleted s.status }

/-- The code column of R84's table. The table gives the codes no width, so they are naturals. -/
def faultNumber : FaultCode → Nat
  | .hfBusyWrite => 0x01
  | .hfBusyRead => 0x02
  | .hfUnwritten => 0x03
  | .pfAbsent => 0x10
  | .pfUnwrittenArg => 0x11
  | .pfVersion => 0x12
  | .pfFmtData => 0x13
  | .pfVerData => 0x14
  | .pfMatrix => 0x15

/-- The fault a code of R84's table names; no other number is a code. -/
def faultOfNumber (k : Nat) : Option FaultCode :=
  match k with
  | 0x01 => some .hfBusyWrite
  | 0x02 => some .hfBusyRead
  | 0x03 => some .hfUnwritten
  | 0x10 => some .pfAbsent
  | 0x11 => some .pfUnwrittenArg
  | 0x12 => some .pfVersion
  | 0x13 => some .pfFmtData
  | 0x14 => some .pfVerData
  | 0x15 => some .pfMatrix
  | _ => none

/-- FAULTS as the list of R84's codes, oldest first (R28). -/
def faultRecord (s : State) : List Nat := s.faults.map faultNumber

/-- Append a code to FAULTS (R28). -/
def recordFault (c : FaultCode) (s : State) : State := { s with faults := s.faults ++ [c] }

/-- THE SHARED OPERATION OF TAKING A FAULT IN `perform` (R85): FAULTS gets the code, no result register is
written, and the completion still happens. NQR-CORE saves no state, has no handler address and changes no mode
(R88); there is no return from it (R89). -/
def raiseFault (c : FaultCode) (s : State) : State := complete (recordFault c s)

/-- THE SHARED OPERATION OF TAKING A FAULT IN A HOST ACCESS (R86): FAULTS gets the code, the HOST takes no further
step, and the access has no other effect. -/
def hostFault (c : FaultCode) (s : State) : State :=
  { s with faults := s.faults ++ [c], hostStopped := true }

/-- The command latched by a CTRL write of `w` when ARG holds `arg` (R55). -/
def latch (w : Word) (arg : Option Word) : Pend :=
  { opc := opcField w, absent := absentField w, rsvd := rsvdField w, arg := arg }

/-- The command start of R55, for BUSY = 0: PEND latches the word and ARG, BUSY ← 1, DONE, INVARG, ILLOP ← 0. -/
def startCommand (w : Word) (s : State) : State :=
  { s with pend := some (latch w s.arg), status := statusStarted }

/-- The CTRL word that PEND holds, `{p.rsvd, p.absent, p.opc}` (R56). -/
def pendWord (p : Pend) : Word := ctrlWord p.rsvd p.absent p.opc

/-- `perform` of an illegal word (R53): ILLOP ← 1 and the completion; RESULT, SCORE, ARG and FAULTS are kept. -/
def performIllegal (s : State) : State := complete (writeIllop s)

/-- The reset input (R99): ARG, RESULT, SCORE unwritten, STATUS 0, PEND none; FAULTS and MATRIX unchanged. The
HOST's own state is not the block's and is unchanged. -/
def assertReset (s : State) : State :=
  { s with arg := none, status := Status.reset, result := none, score := none, pend := none }

/-- The HOST's read returned `v`. -/
def logRead (v : Word) (s : State) : State := { s with reads := s.reads ++ [v] }

end Sys2Proof.Machine
end

