-- ==== Sys2Proof/Machine/Operands.lean ====
section
/-! DEFINITION. The operands of commands: ARG as latched (R51), and the matrix port (R29, R40). -/

namespace Sys2Proof.Machine

/-- The operand of the command being performed, `p.arg` (R26, R46): ARG as it stood at the CTRL write, `none` if
it was unwritten then. Every operand is this whole 32-bit value, read as an unsigned integer (R51). -/
def operand (s : State) : Option Word := s.pend.bind (·.arg)

/-- The integer commands other than SYMSIZE, in the order of R56 and R87: ABSENT = 1 raises `PF_ABSENT`; an
unwritten operand raises `PF_UNWRITTEN_ARG`; then the command's own rule `f` gives RESULT or the fault of its
precondition. -/
def runOnArg (absent : Bool) (f : Nat → Except FaultCode Nat) (s : State) : State :=
  if absent then raiseFault .pfAbsent s
  else match operand s with
    | none => raiseFault .pfUnwrittenArg s
    | some v =>
      match f v.toNat with
      | .ok r => complete (writeResult (zext32 r) s)
      | .error c => raiseFault c s

/-- `MC`, the module count on the port (R11, R29). -/
def moduleCount (m : PortMatrix) : Nat := m.n

/-- `Dark(r, c)` of the port (R11, R29), 1 (true) for dark. It is defined only for `0 <= r, c < MC`; outside that
range, where no rule reads (R40), it is light here. -/
def darkAt (m : PortMatrix) (r c : Nat) : Bool :=
  if h : r < m.n ∧ c < m.n then (m.modules[r])[c] else false

end Sys2Proof.Machine
end

