-- ==== Sys2Proof/Machine/Rom.lean ====
section
/-! DEFINITION. The ROM constants (R18): fixed at manufacture, written by no step, not addressable by the HOST.
Their values are the defaults of R7 and R60, which the spec takes from general knowledge
(notes/assumptions/9.md). -/

namespace Sys2Proof.Machine

/-- `G15`, the format-info generator, degree 10 (R7, R18). -/
def g15 : BitVec 11 := 0x537#11

/-- `G18`, the version-info generator, degree 12 (R7, R18). -/
def g18 : BitVec 13 := 0x1F25#13

/-- `G15_MASK`, XORed on format-info results only (R7, R18). -/
def g15Mask : BitVec 15 := 0x5412#15

/-- `CW_TABLE[0..40]` (R60). Entry 0 is the sentinel, which no command reads (R63). -/
def cwTable : List (BitVec 16) :=
  [0, 26, 44, 70, 100, 134, 172, 196, 242, 292, 346]
    ++ [404, 466, 532, 581, 655, 733, 815, 901, 991, 1085]
    ++ [1156, 1258, 1364, 1474, 1588, 1706, 1828, 1921, 2051, 2185]
    ++ [2323, 2465, 2611, 2761, 2876, 3034, 3196, 3362, 3532, 3706]

/-- `CW_TABLE[v]`. Only `1 <= v <= 40` is ever asked (R63); above the table it answers 0. -/
def cwEntry (v : Nat) : Nat := (cwTable.getD v 0#16).toNat

/-- The raw-data-module count `R(v)` of R60, over the integers. The ROM does not use it: R60 checks the table
against it. -/
def rawModules (v : Nat) : Int :=
  let a : Int := v / 7 + 2
  (16 * v + 128) * v + 64 - (if v ≥ 2 then (25 * a - 10) * a - 55 else 0) - (if v ≥ 7 then 36 else 0)

end Sys2Proof.Machine
end

