-- ==== Sys2Proof/Machine/BchEncoder.lean ====
section
/-! DEFINITION. The BCHEncoder unit: BITLEN (R68), FMTENC (R69) and VERENC (R70). -/

namespace Sys2Proof.Machine

/-- The rule of BITLEN (R68). -/
def bitlenRule (v : Nat) : Except FaultCode Nat := .ok (bitLength v)

/-- The codeword `d | DIVREM(d, g)` of R69 and R70, where `d` is the data shifted left by the generator's
degree. -/
def codeword (v degree g : Nat) : Nat := (v <<< degree) ||| divrem (v <<< degree) g

/-- The 15-bit format info of R69, masked with G15_MASK. -/
def formatInfo (v : Nat) : Nat := codeword v 10 g15.toNat ^^^ g15Mask.toNat

/-- The 18-bit version info of R70, "no final mask applied". -/
def versionInfo (v : Nat) : Nat := codeword v 12 g18.toNat

/-- The rule of FMTENC (R69). -/
def fmtencRule (v : Nat) : Except FaultCode Nat :=
  if v < 32 then .ok (formatInfo v) else .error .pfFmtData

/-- The rule of VERENC (R70). -/
def verencRule (v : Nat) : Except FaultCode Nat :=
  if 7 ≤ v ∧ v ≤ 40 then .ok (versionInfo v) else .error .pfVerData

/-- BITLEN (R68). -/
def execBitlen (absent : Bool) (s : State) : Host.Outcome State Fault Refusal :=
  .next (runOnArg absent bitlenRule s)

/-- FMTENC (R69). -/
def execFmtenc (absent : Bool) (s : State) : Host.Outcome State Fault Refusal :=
  .next (runOnArg absent fmtencRule s)

/-- VERENC (R70). -/
def execVerenc (absent : Bool) (s : State) : Host.Outcome State Fault Refusal :=
  .next (runOnArg absent verencRule s)

end Sys2Proof.Machine
end

