-- ==== Sys2Proof/Machine/Float64.lean ====
section
/-! DEFINITION. IEEE 754 binary64 (R12). A finite binary64 value is held as the rational number it is;
`fl64` rounds an exact result to the nearest binary64 value, ties to even; `bits64` writes the pattern. -/

namespace Sys2Proof.Machine

/-- `floor(log2(num/den))` for `num, den > 0`. -/
def floorLog2 (num den : Nat) : Int :=
  let k : Int := (Nat.log2 num : Int) - (Nat.log2 den : Int)
  if den * 2 ^ k.toNat ≤ num * 2 ^ (-k).toNat then k else k - 1

/-- `2^e` as a rational, for any integer `e`. -/
def pow2 : Int → Rat
  | .ofNat k => ((2 ^ k : Nat) : Rat)
  | .negSucc k => 1 / ((2 ^ (k + 1) : Nat) : Rat)

/-- The nearest integer, a tie to the even one. -/
def roundEven (x : Rat) : Int :=
  let f := x.floor
  if x - f < 1 / 2 then f
  else if 1 / 2 < x - f then f + 1
  else if f % 2 = 0 then f else f + 1

/-- The exponent of the last place of the binary64 values around `q`: 53 significant bits, no place below
`2^-1074` (gradual underflow). -/
def ulpExp (q : Rat) : Int :=
  if q = 0 then -1074 else max (floorLog2 q.num.natAbs q.den - 52) (-1074)

/-- `fl64(e)` of R12 for a finite result: the exact value of `e` rounded to 53 significant bits, to nearest with
ties to even. -/
def fl64 (q : Rat) : Rat := (roundEven (q / pow2 (ulpExp q)) : Rat) * pow2 (ulpExp q)

/-- `abs(x)` of R12, exact. -/
def absR (x : Rat) : Rat := if x < 0 then -x else x

/-- The binary64 pattern of a value that `fl64` gave: bit 63 the sign, bits 62:52 the exponent, bits 51:0 the
fraction (R76). A significand below `2^52` is a subnormal or zero; a value of `2^1024` or more is infinity. -/
def bits64 (v : Rat) : Bits64 :=
  let e := ulpExp v
  let m := (v / pow2 e).num.natAbs
  let sign : Nat := if v < 0 then 2 ^ 63 else 0
  let magnitude : Nat := if m < 2 ^ 52 then m else (e + 1075).toNat * 2 ^ 52 + (m - 2 ^ 52)
  BitVec.ofNat 64 (sign + min magnitude (0x7FF * 2 ^ 52))

/-- The value of a finite binary64 pattern (R76's fields read back). -/
def value64 (b : Bits64) : Rat :=
  let frac := (b.extractLsb' 0 52).toNat
  let ex := (b.extractLsb' 52 11).toNat
  let magnitude : Rat := if ex = 0 then (frac : Rat) * pow2 (-1074) else ((2 ^ 52 + frac : Nat) : Rat) * pow2 (ex - 1075)
  if b.getLsbD 63 then -magnitude else magnitude

end Sys2Proof.Machine
end

