-- ==== Sys2Proof/Machine/MaskScorer.lean ====
section
/-! DEFINITION. The MaskScorer unit: the four penalty rules (R72 to R75), their sum (R76) and EVAL (R71). -/

namespace Sys2Proof.Machine

/-- The sum of `f r c` over `0 <= r < rows`, `0 <= c < cols`: the double loop of R72 to R75. -/
def gridSum (rows cols : Nat) (f : Nat → Nat → Nat) : Nat :=
  ((List.range rows).map fun r => ((List.range cols).map (f r)).sum).sum

/-- `{-1,0,1}^2 \ {(0,0)}` (R72). -/
def neighbourOffsets : List (Int × Int) :=
  [(-1, -1), (-1, 0), (-1, 1), (0, -1), (0, 1), (1, -1), (1, 0), (1, 1)]

/-- Whether the neighbour of `(r, c)` at offset `d` is inside the matrix and of the same colour (R72). -/
def sameAt (m : PortMatrix) (r c : Nat) (d : Int × Int) : Bool :=
  let r' : Int := r + d.1
  let c' : Int := c + d.2
  decide (0 ≤ r' ∧ r' < moduleCount m ∧ 0 ≤ c' ∧ c' < moduleCount m)
    && (darkAt m r'.toNat c'.toNat == darkAt m r c)

/-- `k` of R72: how many of the up to 8 neighbours have the module's colour. -/
def sameNeighbours (m : PortMatrix) (r c : Nat) : Nat := neighbourOffsets.countP (sameAt m r c)

/-- RULE1, local-neighbourhood uniformity (R72). -/
def rule1 (m : PortMatrix) : Nat :=
  gridSum (moduleCount m) (moduleCount m) fun r c =>
    if sameNeighbours m r c > 5 then 3 + (sameNeighbours m r c - 5) else 0

/-- `s` of R73: how many modules of the 2×2 block at `(r, c)` are dark. -/
def blockDark (m : PortMatrix) (r c : Nat) : Nat :=
  (darkAt m r c).toNat + (darkAt m (r + 1) c).toNat + (darkAt m r (c + 1)).toNat
    + (darkAt m (r + 1) (c + 1)).toNat

/-- RULE2, block uniformity (R73). -/
def rule2 (m : PortMatrix) : Nat :=
  gridSum (moduleCount m - 1) (moduleCount m - 1) fun r c =>
    if blockDark m r c = 0 ∨ blockDark m r c = 4 then 3 else 0

/-- FP, the finder-like pattern of R74, dark = true. -/
def finderPattern : List Bool := [true, false, true, true, true, false, true]

/-- Whether the seven modules `at 0, …, at 6` spell FP (R74). -/
def isFinder (module : Nat → Bool) : Bool := (List.range 7).map module == finderPattern

/-- RULE3, finder-like false patterns: every horizontal, then every vertical window (R74). For `n < 7` there is
none (`n - 6` is 0). -/
def rule3 (m : PortMatrix) : Nat :=
  gridSum (moduleCount m) (moduleCount m - 6) (fun r c => if isFinder (fun i => darkAt m r (c + i)) then 40 else 0)
    + gridSum (moduleCount m) (moduleCount m - 6) (fun c r => if isFinder (fun i => darkAt m (r + i) c) then 40 else 0)

/-- `D` of R75: the number of dark modules. -/
def darkCount (m : PortMatrix) : Nat :=
  gridSum (moduleCount m) (moduleCount m) fun r c => (darkAt m r c).toNat

/-- The quotient `q` of R75 in the two settings of `BAL_DIV`. -/
def balanceQuotient (b : Config.BalDiv) (n d : Nat) : Rat :=
  let x := fl64 ((100 * d : Nat) : Rat)
  match b with
  | .successive => fl64 (fl64 (x / n) / n)
  | .single => fl64 (x / (n * n : Nat))

/-- T4 of R75 for `d` dark modules of `n*n`: each operation is one rounded binary64 operation. -/
def balanceTerm (b : Config.BalDiv) (n d : Nat) : Rat :=
  let a := absR (fl64 (balanceQuotient b n d - 50))
  let ra := fl64 (a / 5)
  fl64 (ra * 10)

/-- RULE4, global balance (R75). -/
def rule4 (b : Config.BalDiv) (m : PortMatrix) : Rat := balanceTerm b (moduleCount m) (darkCount m)

/-- ACCUMULATE (R76): the integer terms exactly, then T4 with one rounding. -/
def accumulate (p1 p2 p3 : Nat) (t4 : Rat) : Rat := fl64 (fl64 ((p1 + p2 + p3 : Nat) : Rat) + t4)

/-- The score of R71 as a binary64 value. -/
def scoreValue (b : Config.BalDiv) (m : PortMatrix) : Rat := accumulate (rule1 m) (rule2 m) (rule3 m) (rule4 b m)

/-- The pattern EVAL writes to SCORE (R71). -/
def scoreBits (b : Config.BalDiv) (m : PortMatrix) : Bits64 := bits64 (scoreValue b m)

/-- EVAL (R71). ARG is ignored. -/
def execEval (absent : Bool) (s : State) : Host.Outcome State Fault Refusal :=
  .next <|
    if absent then raiseFault .pfAbsent s
    else if moduleCount s.matrix = 0 then raiseFault .pfMatrix s
    else complete (writeScore (scoreBits s.params.balDiv s.matrix) s)

end Sys2Proof.Machine
end

