-- ==== Sys2Proof/Machine/SymbolDimension.lean ====
section
/-! DEFINITION. The SymbolDimension unit: SYMSIZE (R61) and TOTALCW (R63). -/

namespace Sys2Proof.Machine

/-- The versions both commands admit: `1 <= v <= 40`. -/
def versionOk (v : Nat) : Bool := decide (1 ≤ v ∧ v ≤ 40)

/-- `S(v) = 4v + 17` (R61, R62). -/
def symbolSize (v : Nat) : Nat := 4 * v + 17

/-- The invalid-argument outcome of R61 and R82: RESULT ← 0, INVARG ← 1. -/
def symsizeInvalid (s : State) : State := complete (writeInvarg true (writeResult 0#32 s))

/-- SYMSIZE (R61). Absent, or outside [1,40]: INVARG. An unwritten ARG with ABSENT = 0 is `PF_UNWRITTEN_ARG`
(R56). -/
def execSymsize (absent : Bool) (s : State) : Host.Outcome State Fault Refusal :=
  .next <|
    if absent then symsizeInvalid s
    else match operand s with
      | none => raiseFault .pfUnwrittenArg s
      | some v =>
        if versionOk v.toNat then complete (writeInvarg false (writeResult (zext32 (symbolSize v.toNat)) s))
        else symsizeInvalid s

/-- The rule of TOTALCW (R63). -/
def totalcwRule (v : Nat) : Except FaultCode Nat :=
  if versionOk v then .ok (cwEntry v) else .error .pfVersion

/-- TOTALCW (R63). -/
def execTotalcw (absent : Bool) (s : State) : Host.Outcome State Fault Refusal :=
  .next (runOnArg absent totalcwRule s)

end Sys2Proof.Machine
end

