-- ==== Sys2Proof/Machine/Dispatch.lean ====
section
/-! DEFINITION. One arm per command: the effect of `perform` on the decoded command, completion included (R56). -/

namespace Sys2Proof.Machine

def exec (i : Instr) (s : State) : Host.Outcome State Fault Refusal :=
  match i with
  | .symsize absent => Sys2Proof.Machine.execSymsize absent s
  | .totalcw absent => Sys2Proof.Machine.execTotalcw absent s
  | .bitlen absent => Sys2Proof.Machine.execBitlen absent s
  | .fmtenc absent => Sys2Proof.Machine.execFmtenc absent s
  | .verenc absent => Sys2Proof.Machine.execVerenc absent s
  | .eval absent => Sys2Proof.Machine.execEval absent s

end Sys2Proof.Machine
end

