-- ==== Sys2Proof/Machine/HostAccess.lean ====
section
/-! DEFINITION. The HOST: the register window (R34 to R37), admission (R35), reads and writes with their faults
(R20 to R25, R86, R102), and the HOST's operations (R15, R41, R58). -/

namespace Sys2Proof.Machine

/-- The six mapped word slots of the window (R34). -/
inductive Slot
  | arg | ctrl | status | result | scoreLo | scoreHi
deriving DecidableEq, Repr

/-- The register at an offset of the window; 0x18 and 0x1C are reserved, and nothing else is decoded (R34). -/
def slotAt (off : Nat) : Option Slot :=
  match off with
  | 0x00 => some .arg
  | 0x04 => some .ctrl
  | 0x08 => some .status
  | 0x0C => some .result
  | 0x10 => some .scoreLo
  | 0x14 => some .scoreHi
  | _ => none

/-- The offset of each register (R34). -/
def slotOffset : Slot → Nat
  | .arg => 0x00
  | .ctrl => 0x04
  | .status => 0x08
  | .result => 0x0C
  | .scoreLo => 0x10
  | .scoreHi => 0x14

/-- The four conditions of R35: 32 bits wide, an address that is a multiple of 4, an offset in 0x00..0x14, and
issued by the HOST that owns the instance (R42). -/
def admitted (base : Nat) (a : Access) : Bool :=
  decide (a.width = .word) && decide (a.addr % 4 = 0) && decide (base ≤ a.addr ∧ a.addr ≤ base + 0x14) && a.fromOwner

/-- SCORE_LO = SCORE[31:0] (R34, R36). -/
def scoreLo (b : Bits64) : Word := b.extractLsb' 0 32

/-- SCORE_HI = SCORE[63:32] (R34, R36). -/
def scoreHi (b : Bits64) : Word := b.extractLsb' 32 32

/-- Byte lane `k` of a bus word, bits `8k+7:8k`: the little-endian naming of R36. No admitted access is narrower
than a word, so no step uses it. -/
def byteLane (w : Word) (k : Fin 4) : BitVec 8 := w.extractLsb' (8 * k) 8

/-- A result register as the HOST may read it: not while BUSY (R102), then not while unwritten (R87). -/
def readResultReg (s : State) (r : Option Word) : Except FaultCode Word :=
  if s.status.busy then .error .hfBusyRead
  else match r with
    | some v => .ok v
    | none => .error .hfUnwritten

/-- What a HOST read of a register returns (R20, R21, R22, R24, R25, R102). No read changes a register (R37). -/
def readSlot (r : Slot) (s : State) : Except FaultCode Word :=
  match r with
  | .arg => match s.arg with
    | some v => .ok v
    | none => .error .hfUnwritten
  | .ctrl => .ok 0#32
  | .status => .ok (statusWord s.status)
  | .result => readResultReg s s.result
  | .scoreLo => readResultReg s (s.score.map scoreLo)
  | .scoreHi => readResultReg s (s.score.map scoreHi)

/-- A HOST write (R20, R21, R55, R102): to ARG it stores, to CTRL it starts a command, both `HF_BUSY_WRITE` while
BUSY = 1; to a read-only register it is ignored (R22, R24, R25, R37). -/
def writeSlot (r : Slot) (v : Word) (s : State) : State :=
  match r with
  | .arg => if s.status.busy then hostFault .hfBusyWrite s else writeArg v s
  | .ctrl => if s.status.busy then hostFault .hfBusyWrite s else startCommand v s
  | .status => s
  | .result => s
  | .scoreLo => s
  | .scoreHi => s

/-- One admitted access to a register, whole and in one step (R37): a read returns its value to the HOST, or
faults and returns none (R86). -/
def accessSlot (r : Slot) (k : AccessKind) (s : State) : State :=
  match k with
  | .read => match readSlot r s with
    | .ok v => logRead v s
    | .error c => hostFault c s
  | .write v => writeSlot r v s

/-- One admitted access, by its bus address `BASE + off` (R34). -/
def hostAccess (a : Access) (s : State) : State :=
  match slotAt (a.addr - s.params.base) with
  | some r => accessSlot r a.kind s
  | none => s

/-- Whether the HOST can do an operation now: an access must be admitted (R35); `poll` is a read of STATUS, always
admitted; MATRIX is not changed while BUSY = 1 (R41, R105). -/
def moveEnabled (s : State) : HostMove → Bool
  | .access a => admitted s.params.base a
  | .poll => true
  | .present _ => !s.status.busy

/-- Whether the HOST agent has a step: it has not stopped on a fault (R86), and its next operation can be done. -/
def hostEnabled (s : State) : Bool :=
  !s.hostStopped && match s.script with
    | [] => false
    | mv :: _ => moveEnabled s mv

/-- The HOST's next operation. `poll` reads STATUS and is repeated until the read shows DONE = 1 (R58). -/
def hostMove (s : State) : State :=
  match s.script with
  | [] => s
  | .access a :: rest => hostAccess a { s with script := rest }
  | .poll :: rest => logRead (statusWord s.status) { s with script := if s.status.done then rest else s.script }
  | .present m :: rest => { s with script := rest, matrix := m }

end Sys2Proof.Machine
end

