-- ==== Sys2Proof/Machine/Perform.lean ====
section
/-! DEFINITION. The CORE's one step, `perform` (R15, R56), and the turns of the agents (R43). -/

namespace Sys2Proof.Machine

/-- `perform` on the latched command `p` (R56): an illegal word sets ILLOP, a command runs. -/
def performPend (p : Pend) (s : State) : Host.Outcome State Fault Refusal :=
  match decode (pendWord p) with
  | .illegal _ => .next (performIllegal s)
  | .command i => exec i s

/-- `perform` (R56), one indivisible transition. BUSY = 1 with no latched command is excluded by R26. -/
def perform (s : State) : Host.Outcome State Fault Refusal :=
  match s.pend with
  | some p => performPend p s
  | none => .fault .noLatchedCommand

/-- The step when no turn is laid down: the CORE acts if BUSY = 1; else the HOST, if it can; else no agent has a
step. A HOST with nothing left to do leaves the block idle (R98, R108); a HOST that has stopped (R86) or stands at
an access that is not admitted (R35) ends the run. -/
def unscheduled (s : State) : Host.Outcome State Fault Refusal :=
  if s.status.busy then perform s
  else if hostEnabled s then .next (hostMove s)
  else if s.hostStopped then .fault .hostStopped
  else if s.script.isEmpty then .next s
  else .fault .accessNotAdmitted

/-- The step of the agent a turn names (R15, R99). An agent that has no step lets its turn pass. -/
def takeTurn (t : Turn) (s : State) : Host.Outcome State Fault Refusal :=
  match t with
  | .core => if s.status.busy then perform s else .next s
  | .host => if hostEnabled s then .next (hostMove s) else .next s
  | .reset => .next (assertReset s)

/-- The machine as the CORE finds it when a CTRL write of `w` has just started a command (R55) and the next step is
the CORE's. -/
def placeCommand (w : Word) (s : State) : State := { startCommand w s with turns := .core :: s.turns }

end Sys2Proof.Machine
end

