-- ==== Sys2Proof/Machine/Step.lean ====
section
/-! DEFINITION. One step of the machine: one event of R43's total order. -/

namespace Sys2Proof.Machine

/-- One step: the turn laid down first, else the order of `unscheduled`. -/
def step (s : State) : Host.Outcome State Fault Refusal :=
  match s.turns with
  | t :: ts => takeTurn t { s with turns := ts }
  | [] => unscheduled s

/-- NQR-CORE fetches nothing (R17, R46): a command comes to it as a CTRL write. So the word is placed by that
write's own effect (R55: PEND with ARG's value, STATUS), and the next step is the CORE's. -/
def State.withFetchWord (s : State) (nbits w : Nat) : State :=
  placeCommand (BitVec.ofNat 32 (w % 2 ^ nbits)) s

end Sys2Proof.Machine
end

