-- ==== Sys2Proof/WellFormed.lean ====
section
/-! DEFINITION. Which terms of the syntax are well-formed. -/

namespace Sys2Proof

/-- Every command with either value of ABSENT has a CTRL word that decodes to it: the legal words and
`0x00000102` to `0x00000106` of R50. So no check can fail; what ABSENT = 1 means is the machine's matter (R54). -/
def Instr.wf : Instr → Bool
  | .symsize _ => true
  | .totalcw _ => true
  | .bitlen _ => true
  | .fmtenc _ => true
  | .verenc _ => true
  | .eval _ => true

/-- The operand forms R58 gives each mnemonic: a literal that fits the 32-bit ARG for all but EVAL; `-` for
SYMSIZE only; nothing for EVAL only. -/
def operandFits : Mnemonic → AsmOperand → Bool
  | .eval, .nothing => true
  | .eval, _ => false
  | .symsize, .dash => true
  | _, .dash => false
  | _, .nothing => false
  | _, .literal v => decide (v < 2 ^ 32)

/-- A line is well-formed when its operand has a form of R58; `FMTINFO` takes a 2-bit level and a 3-bit mask
index (R59). -/
def AsmLine.wf : AsmLine → Bool
  | .command m o => operandFits m o
  | .fmtinfo ecl mask => decide (ecl < 4) && decide (mask < 8)

end Sys2Proof
end

