-- ==== Sys2Proof/Machine/Assembler.lean ====
section
/-! DEFINITION. The HOST operations `wr` and `rd` of R58, and the expansions of R59. -/

namespace Sys2Proof.Machine

/-- `wr OFF, v`: a 32-bit write of `v` to `BASE + OFF` by the owning HOST (R58). -/
def wr (base off : Nat) (v : Word) : HostMove :=
  .access { fromOwner := true, width := .word, addr := base + off, kind := .write v }

/-- `rd OFF`: a 32-bit read (R58). -/
def rd (base off : Nat) : HostMove :=
  .access { fromOwner := true, width := .word, addr := base + off, kind := .read }

/-- The command a mnemonic names, with the given ABSENT bit. -/
def mnemonicInstr (m : Mnemonic) (absent : Bool) : Instr :=
  match m with
  | .symsize => .symsize absent
  | .totalcw => .totalcw absent
  | .bitlen => .bitlen absent
  | .fmtenc => .fmtenc absent
  | .verenc => .verenc absent
  | .eval => .eval absent

/-- The four error-correction levels, whose codes the FMTINFO split of R59 names. -/
inductive EcLevel
  | l | m | q | h
deriving DecidableEq, Repr

/-- L = 0b01, M = 0b00, Q = 0b11, H = 0b10 (R59; from general knowledge, notes/assumptions/25.md). -/
def ecCode : EcLevel → Nat
  | .l => 0b01
  | .m => 0b00
  | .q => 0b11
  | .h => 0b10

/-- `(ecl << 3) | mask` (R59). -/
def fmtinfoData (ecl mask : Nat) : Nat := (ecl <<< 3) ||| mask

/-- One command's HOST operations: write ARG, write CTRL, poll (R59). -/
def commandMoves (base : Nat) (m : Mnemonic) (v : Nat) : List HostMove :=
  [wr base 0x00 (zext32 v), wr base 0x04 (encode (mnemonicInstr m false)), .poll]

/-- The exact expansion of a well-formed line (R59); an ill-formed line expands to nothing. `SYMSIZE -` and `EVAL`
do not write ARG. -/
def expand (base : Nat) (l : AsmLine) : List HostMove :=
  if l.wf then
    match l with
    | .command m (.literal v) => commandMoves base m v
    | .command m .dash => [wr base 0x04 (encode (mnemonicInstr m true)), .poll]
    | .command m .nothing => [wr base 0x04 (encode (mnemonicInstr m false)), .poll]
    | .fmtinfo ecl mask => commandMoves base .fmtenc (fmtinfoData ecl mask)
  else []

end Sys2Proof.Machine
end

