-- ==== Sys2Proof/Machine/MaskSelection.lean ====
section
/-! DEFINITION. The HOST's use of SCORE (R81): a host duty, outside the block. -/

namespace Sys2Proof.Machine

/-- `a < b` under binary64 `<`, for the finite scores EVAL gives (R81). -/
def scoreLess (a b : Bits64) : Bool := decide (value64 a < value64 b)

/-- The loop of R81 from index `m` on, with `best` the index and score kept so far: replace only if strictly
less. -/
def selectFrom (m : Nat) (best : Nat × Bits64) : List Bits64 → Nat
  | [] => best.1
  | s :: rest => selectFrom (m + 1) (if scoreLess s best.2 then (m, s) else best) rest

/-- The index R81 selects among the scores `s_0, s_1, …`: the first is taken, later ones replace it only if
strictly less. -/
def selectMask : List Bits64 → Option Nat
  | [] => none
  | s :: rest => some (selectFrom 1 (0, s) rest)

end Sys2Proof.Machine
end

