-- ==== Sys2Proof/Machine/Platform.lean ====
section
/-! DEFINITION. A platform with `NQR_INSTANCES >= 1` instances (R7, R96), each with its own window, state, port
and HOST. -/

namespace Sys2Proof.Machine

/-- The instances of a platform, in any fixed order; an instance's identity is its `BASE` (R96). -/
structure Platform where
  instances : List State
deriving DecidableEq, Repr

/-- At least one instance, and no two windows at one `BASE` (R96). -/
def Platform.wf (p : Platform) : Bool :=
  !p.instances.isEmpty && decide ((p.instances.map fun s => s.params.baseBlock).Pairwise (· ≠ ·))

/-- Every instance starts at reset (R96), one per entry of `ps`. -/
def Platform.powerOn (ps : List (Config.Params × PortMatrix × List HostMove × List Turn)) : Platform :=
  { instances := ps.map fun (p, m, script, turns) => State.powerOn p m script turns }

/-- The instance whose 32-byte window holds a bus address (R34), if any. -/
def Platform.instanceAt (p : Platform) (addr : Nat) : Option Nat :=
  p.instances.findIdx? fun s => decide (addr / 0x20 = s.params.baseBlock)

/-- Instance `i` takes a step; the others are as they were (R96: "Instances share no state"). -/
def Platform.stepAt (p : Platform) (i : Nat) : Host.Outcome Platform Fault Refusal :=
  match p.instances[i]? with
  | none => .next p
  | some s =>
    match step s with
    | .next t => .next { instances := p.instances.set i t }
    | .fault r => .fault r
    | .refused r => .refused r

end Sys2Proof.Machine
end

