-- ==== Sys2Proof/Safety.lean ====
section
/-! DEFINITION. What a run may rely on: when a run ends and whether its end is good (R108), and the invariants the
spec states. -/

namespace Sys2Proof.Machine

/-- No step of any agent is enabled (R15, R108). -/
def noStepEnabled (s : State) : Bool := !s.status.busy && !hostEnabled s

/-- A run has ended (R108): the HOST has executed its last operation, BUSY = 0, and no step is enabled. -/
def ended (s : State) : Bool := s.script.isEmpty && !s.status.busy && noStepEnabled s

/-- A good end: FAULTS is empty (R108). -/
def goodEnd (s : State) : Bool := ended s && s.faults.isEmpty

/-- "BUSY = 1 implies DONE = INVARG = ILLOP = 0" and "INVARG and ILLOP are never both 1" (R22). -/
abbrev StatusLegal (st : Status) : Prop :=
  (st.busy = true → st.done = false ∧ st.invarg = false ∧ st.illop = false)
    ∧ ¬ (st.invarg = true ∧ st.illop = true)

/-- "`PEND ≠ none` exactly when STATUS.BUSY = 1" (R26). -/
abbrev PendLegal (s : State) : Prop := s.pend.isSome = s.status.busy

/-- RESULT, where written, fits the widest width of R24, 18 bits. -/
abbrev ResultLegal (r : Option Word) : Prop := ∀ v, r = some v → v.toNat < 2 ^ 18

/-- The invariant every step keeps. -/
abbrev MachineInv (s : State) : Prop := StatusLegal s.status ∧ PendLegal s ∧ ResultLegal s.result

/-- SCORE, where written, is a binary64 pattern with the sign bit clear and a value below `2^23` (R25, R77):
nonnegative patterns are ordered as their values, and `0x4160000000000000` is `2^23`. So it is finite and
not −0. -/
abbrev ScoreLegal (b : Option Bits64) : Prop := ∀ v, b = some v → v.toNat < 0x4160000000000000

end Sys2Proof.Machine
end

