-- ==== Sys2Proof/Certificates/Slice0/Obligations.lean ====
section
/-! DEFINITION. The statements about NQR-CORE, for the provers. A command's result statement gives the whole next
state, so it is the command's frame too: every field not named is as before. NQR-CORE has no byte-addressed memory
(R33); the one array it reads, the matrix port, is the field `matrix`, which these next states keep. -/

open Sys2Proof Sys2Proof.Machine

/-! ### Encoding -/

/-- 30_encoding.md sections 1 and 2: each command is one CTRL word, and each word that decodes to a command is that word. -/
def Obligations.CommandsAndLegalWordsCorrespond : Prop :=
  (∀ i : Instr, i.wf = true → decode (encode i) = .command i)
    ∧ (∀ (w : Word) (i : Instr), decode w = .command i → encode i = w)

/-- The encoding vectors of 95_test_vectors.md section 2, word by word. -/
def Obligations.WrittenWordsDecodeAsListed : Prop :=
  decode 0x00000001#32 = .command (.symsize false) ∧ decode 0x00000101#32 = .command (.symsize true)
    ∧ decode 0x00000002#32 = .command (.totalcw false) ∧ decode 0x00000102#32 = .command (.totalcw true)
    ∧ decode 0x00000003#32 = .command (.bitlen false) ∧ decode 0x00000004#32 = .command (.fmtenc false)
    ∧ decode 0x00000005#32 = .command (.verenc false) ∧ decode 0x00000006#32 = .command (.eval false)
    ∧ decode 0x00000106#32 = .command (.eval true) ∧ decode 0x00000000#32 = .illegal .unknownOpcode
    ∧ decode 0x00000007#32 = .illegal .unknownOpcode ∧ decode 0x000000FF#32 = .illegal .unknownOpcode
    ∧ decode 0x00000201#32 = .illegal .reservedBits ∧ decode 0x80000004#32 = .illegal .reservedBits
    ∧ decode 0x00000307#32 = .illegal .reservedBits

/-- R53: which words are illegal, that they are latched and started like any other, and all that their `perform`
writes. -/
def Obligations.IllegalWordsSetIllopOnly : Prop :=
  (∀ w : Word, (∃ why, decode w = .illegal why)
      ↔ (w.extractLsb' 9 23 ≠ 0#23 ∨ (w.extractLsb' 0 8).toNat < 1 ∨ 6 < (w.extractLsb' 0 8).toNat))
    ∧ (∀ (w : Word) (s : State), s.status.busy = false →
        (writeSlot .ctrl w s).pend.map pendWord = some w ∧ (writeSlot .ctrl w s).status.busy = true)
    ∧ (∀ (s : State) (p : Pend) (why : Illegal) (ts : List Turn),
        s.turns = .core :: ts → s.status.busy = true → s.pend = some p → decode (pendWord p) = .illegal why →
        step s = .next { s with turns := ts, pend := none, status :=
            { busy := false, done := true, invarg := s.status.invarg, illop := true } })

/-- 30_encoding.md section 3: when BUSY = 1 and the latched word decodes to a command, the CORE's step is that command, on the state
with the turn taken off; a word placed by `withFetchWord` is run by the very next step, as if the HOST had just
written it to CTRL (the placing is the model's: notes/assumptions/19.md; the turns: 2.md). -/
def Obligations.StepRunsTheLatchedCommand : Prop :=
  (∀ (s : State) (p : Pend) (i : Instr), s.status.busy = true → s.pend = some p →
      decode (pendWord p) = .command i → i.wf = true →
      (∀ ts, s.turns = .core :: ts → step s = exec i { s with turns := ts }) ∧ (s.turns = [] → step s = exec i s))
    ∧ (∀ (s : State) (w : Nat) (i : Instr), w < 2 ^ 32 → decode (BitVec.ofNat 32 w) = .command i →
        step (s.withFetchWord 32 w) = exec i (startCommand (BitVec.ofNat 32 w) s))

/-! ### SymbolDimension -/

/-- R61: SYMSIZE on every operand, with ABSENT, and with ABSENT = 0 and ARG unwritten. -/
def Obligations.SymsizeGivesTheSizeOrInvarg : Prop :=
  (∀ (s : State) (v : Word), operand s = some v → 1 ≤ v.toNat → v.toNat ≤ 40 →
      exec (.symsize false) s = .next { s with
        result := some (BitVec.ofNat 32 (4 * v.toNat + 17)), pend := none,
        status := { s.status with busy := false, done := true, invarg := false } })
    ∧ (∀ (s : State) (v : Word), operand s = some v → (v.toNat < 1 ∨ 40 < v.toNat) →
        exec (.symsize false) s = .next { s with
          result := some 0#32, pend := none,
          status := { s.status with busy := false, done := true, invarg := true } })
    ∧ (∀ s : State, exec (.symsize true) s = .next { s with
        result := some 0#32, pend := none,
        status := { s.status with busy := false, done := true, invarg := true } })
    ∧ (∀ s : State, operand s = none → exec (.symsize false) s = .next { s with
        faults := s.faults ++ [.pfUnwrittenArg], pend := none,
        status := { s.status with busy := false, done := true } })

/-- The laws of `S(v) = 4v + 17` on the admitted versions, the spec's own inference ("[derived: from rule R61]",
40_symbol_dimension.md section 2). -/
def Obligations.SymbolSizeLaws : Prop :=
  (∀ v, 1 ≤ v → v ≤ 40 → symbolSize v = 4 * v + 17 ∧ 21 ≤ symbolSize v ∧ symbolSize v ≤ 177 ∧ symbolSize v < 2 ^ 8
      ∧ symbolSize v % 2 = 1 ∧ symbolSize (v + 1) - symbolSize v = 4)
    ∧ (∀ v w, 1 ≤ v → v < w → w ≤ 40 → symbolSize v < symbolSize w)
    ∧ (∀ n, (∃ v, 1 ≤ v ∧ v ≤ 40 ∧ symbolSize v = n) ↔ (21 ≤ n ∧ n ≤ 177 ∧ n % 4 = 1))
    ∧ ((Finset.Icc 1 40).image symbolSize).card = 40

/-- R63: TOTALCW on every operand. -/
def Obligations.TotalcwReadsTheTable : Prop :=
  (∀ (s : State) (v : Word), operand s = some v → 1 ≤ v.toNat → v.toNat ≤ 40 →
      exec (.totalcw false) s = .next { s with
        result := some (BitVec.ofNat 32 (cwEntry v.toNat)), pend := none,
        status := { s.status with busy := false, done := true } })
    ∧ (∀ (s : State) (v : Word), operand s = some v → (v.toNat < 1 ∨ 40 < v.toNat) →
        exec (.totalcw false) s = .next { s with
          faults := s.faults ++ [.pfVersion], pend := none,
          status := { s.status with busy := false, done := true } })
    ∧ (∀ v, 1 ≤ v → v ≤ 40 → cwEntry v < 2 ^ 12) ∧ cwEntry 1 = 26 ∧ cwEntry 7 = 196 ∧ cwEntry 40 = 3706

/-- R60: the 41 entries of the ROM, and the formula they were checked against. -/
def Obligations.CodewordTableEntries : Prop :=
  cwTable.length = 41
    ∧ cwTable.map BitVec.toNat =
      [0, 26, 44, 70, 100, 134, 172, 196, 242, 292, 346, 404, 466, 532, 581, 655, 733, 815, 901, 991, 1085,
       1156, 1258, 1364, 1474, 1588, 1706, 1828, 1921, 2051, 2185, 2323, 2465, 2611, 2761, 2876, 3034, 3196,
       3362, 3532, 3706]
    ∧ (∀ v, v ≤ 40 → cwTable[v]? = some (BitVec.ofNat 16 (cwEntry v)))
    ∧ (∀ v, 1 ≤ v → v ≤ 40 → (cwEntry v : Int) = rawModules v / 8)

/-! ### BCHEncoder -/

/-- 00_scope.md section 3: the constants and their three constraints (the values are the spec's defaults, from general
knowledge: notes/assumptions/9.md). -/
def Obligations.RomConstantsMeetTheirConstraints : Prop :=
  g15.toNat = 0x537 ∧ g18.toNat = 0x1F25 ∧ g15Mask.toNat = 0x5412
    ∧ bitLength g15.toNat = 11 ∧ bitLength g18.toNat = 13 ∧ g15Mask.toNat < 2 ^ 15

/-- R64: `bitLength(v) = k` exactly when `2^(k-1) <= v < 2^k`, for `v > 0`. -/
def Obligations.BitLengthIsTheTopBitPosition : Prop :=
  bitLength 0 = 0 ∧ ∀ v k, 0 < v → (bitLength v = k ↔ 2 ^ (k - 1) ≤ v ∧ v < 2 ^ k)

/-- R65: DIVREM is its own loop: while the working value is at least as long as `g`, XOR with `g` shifted by the
difference; else the working value. No bound on iterations is left in it. -/
def Obligations.DivremIsTheSpecifiedLoop : Prop :=
  ∀ d g, 0 < g →
    divrem d g = if bitLength g ≤ bitLength d then divrem (d ^^^ (g <<< (bitLength d - bitLength g))) g else d

/-- The termination and bounds of DIVREM (41_bch_encoder.md section 1, partly the spec's own inference): an iteration shortens the working value; how many iterations there are; the remainder is
shorter than the generator. -/
def Obligations.DivremTerminatesWithAShortRemainder : Prop :=
  ∀ d g, 0 < g →
    (∀ w, bitLength g ≤ bitLength w → bitLength (w ^^^ (g <<< (bitLength w - bitLength g))) < bitLength w)
      ∧ divremIterations d g ≤ bitLength d + 1 - bitLength g
      ∧ divrem d g < 2 ^ (bitLength g - 1)

/-- Linearity, a law the spec infers ("[derived: from rule R65; not stated by the source]", 41_bch_encoder.md
section 1). -/
def Obligations.DivremIsLinear : Prop :=
  ∀ a b g, 0 < g → divrem (a ^^^ b) g = divrem a g ^^^ divrem b g

/-- DIVREM is the one remainder of division by `g` over GF(2), a law the spec infers ("[derived: from rule R65]",
41_bch_encoder.md section 1). -/
def Obligations.DivremIsTheUniqueRemainder : Prop :=
  ∀ d g, 0 < g →
    bitLength (divrem d g) < bitLength g
      ∧ (∃ q, d = clmul q g ^^^ divrem d g)
      ∧ (∀ q r, bitLength r < bitLength g → d = clmul q g ^^^ r → r = divrem d g)

/-- The remaining laws the spec infers of DIVREM (41_bch_encoder.md section 1): zero, short values, codewords are multiples, and
disjoint bits make OR, XOR and sum one. -/
def Obligations.CodewordsAreMultiplesOfTheGenerator : Prop :=
  (∀ g, 0 < g → divrem 0 g = 0)
    ∧ (∀ d g, 0 < g → bitLength d < bitLength g → divrem d g = d)
    ∧ (∀ d g, 0 < g → divrem (d ^^^ divrem d g) g = 0)
    ∧ (∀ d g, 0 < g → d % 2 ^ (bitLength g - 1) = 0 →
        (d ||| divrem d g) = (d ^^^ divrem d g) ∧ (d ||| divrem d g) = d + divrem d g)

/-- R68: BITLEN on every operand, and with ARG unwritten. -/
def Obligations.BitlenGivesTheBitLength : Prop :=
  (∀ (s : State) (v : Word), operand s = some v →
      exec (.bitlen false) s = .next { s with
        result := some (BitVec.ofNat 32 (bitLength v.toNat)), pend := none,
        status := { s.status with busy := false, done := true } })
    ∧ (∀ s : State, operand s = none → exec (.bitlen false) s = .next { s with
        faults := s.faults ++ [.pfUnwrittenArg], pend := none,
        status := { s.status with busy := false, done := true } })
    ∧ (∀ v : Word, bitLength v.toNat ≤ 32)
    ∧ bitLength 0 = 0 ∧ bitLength 1 = 1 ∧ bitLength 0b101 = 3 ∧ bitLength 0x80000000 = 32
    ∧ bitLength 0xFFFFFFFF = 32

/-- R69: FMTENC on every operand, and the properties of its 32 results. -/
def Obligations.FmtencGivesTheFormatInfo : Prop :=
  (∀ (s : State) (v : Word), operand s = some v → v.toNat < 32 →
      exec (.fmtenc false) s = .next { s with
        result := some (BitVec.ofNat 32
          (((v.toNat <<< 10) ||| divrem (v.toNat <<< 10) g15.toNat) ^^^ g15Mask.toNat)),
        pend := none, status := { s.status with busy := false, done := true } })
    ∧ (∀ (s : State) (v : Word), operand s = some v → 32 ≤ v.toNat →
        exec (.fmtenc false) s = .next { s with
          faults := s.faults ++ [.pfFmtData], pend := none,
          status := { s.status with busy := false, done := true } })
    ∧ formatInfo 0 = 0x5412 ∧ formatInfo 8 = 0x77C4
    ∧ (∀ v, v < 32 → formatInfo v < 2 ^ 15 ∧ divrem (v <<< 10) g15.toNat < 2 ^ 10
        ∧ (formatInfo v ^^^ g15Mask.toNat) >>> 10 = v
        ∧ divrem (formatInfo v ^^^ g15Mask.toNat) g15.toNat = 0)

/-- R70: VERENC on every operand, and the properties of its 34 results. -/
def Obligations.VerencGivesTheVersionInfo : Prop :=
  (∀ (s : State) (v : Word), operand s = some v → 7 ≤ v.toNat → v.toNat ≤ 40 →
      exec (.verenc false) s = .next { s with
        result := some (BitVec.ofNat 32 ((v.toNat <<< 12) ||| divrem (v.toNat <<< 12) g18.toNat)),
        pend := none, status := { s.status with busy := false, done := true } })
    ∧ (∀ (s : State) (v : Word), operand s = some v → (v.toNat < 7 ∨ 40 < v.toNat) →
        exec (.verenc false) s = .next { s with
          faults := s.faults ++ [.pfVerData], pend := none,
          status := { s.status with busy := false, done := true } })
    ∧ versionInfo 7 = 0x07C94 ∧ versionInfo 40 = 0x28C69
    ∧ (∀ v, 7 ≤ v → v ≤ 40 → versionInfo v < 2 ^ 18 ∧ divrem (v <<< 12) g18.toNat < 2 ^ 12
        ∧ versionInfo v >>> 12 = v ∧ divrem (versionInfo v) g18.toNat = 0)

/-- The minimum distances of the two codes, the spec's own inference ("[derived: … by exhaustive computation]",
41_bch_encoder.md sections 3 and 4): 7 among the 32 format values, 8 among the 34 version values. -/
def Obligations.CodesHaveTheirMinimumDistances : Prop :=
  (∀ v w, v < 32 → w < 32 → v ≠ w →
      7 ≤ (List.range 15).countP fun i => (formatInfo v ^^^ formatInfo w).testBit i)
    ∧ (∀ v w, 7 ≤ v → v ≤ 40 → 7 ≤ w → w ≤ 40 → v ≠ w →
        8 ≤ (List.range 18).countP fun i => (versionInfo v ^^^ versionInfo w).testBit i)

/-! ### MaskScorer -/

/-- R71: EVAL on every port, whatever ARG holds, and its corner cases. -/
def Obligations.EvalWritesTheScore : Prop :=
  (∀ s : State, moduleCount s.matrix ≠ 0 →
      exec (.eval false) s = .next { s with
        score := some (bits64 (accumulate (rule1 s.matrix) (rule2 s.matrix) (rule3 s.matrix)
          (rule4 s.params.balDiv s.matrix))),
        pend := none, status := { s.status with busy := false, done := true } })
    ∧ (∀ s : State, moduleCount s.matrix = 0 →
        exec (.eval false) s = .next { s with
          faults := s.faults ++ [.pfMatrix], pend := none,
          status := { s.status with busy := false, done := true } })
    ∧ (∀ s : State, exec (.eval true) s = .next { s with
        faults := s.faults ++ [.pfAbsent], pend := none,
        status := { s.status with busy := false, done := true } })
    ∧ (∀ b : Config.BalDiv,
        let light : PortMatrix := { n := 21, modules := Vector.replicate 21 (Vector.replicate 21 false) }
        rule1 light = 2166 ∧ rule2 light = 1200 ∧ rule3 light = 0 ∧ rule4 b light = 100
          ∧ scoreBits b light = 0x40AB140000000000#64)
    ∧ (∀ (b : Config.BalDiv) (m : PortMatrix), moduleCount m = 1 →
        rule1 m = 0 ∧ rule2 m = 0 ∧ rule3 m = 0 ∧ scoreBits b m = 0x4059000000000000#64)
    ∧ (∀ m : PortMatrix, moduleCount m < 7 → rule3 m = 0)

/-- R72: rule 1 as a sum over modules of the number of equal neighbours among the offsets of `{-1,0,1}^2` without
`(0,0)`, of which there are 8: a module adds 0, 4, 5 or 6. -/
def Obligations.RuleOneCountsNeighbourhoods : Prop :=
  ∀ m : PortMatrix,
    let k := fun (r c : ℕ) => (((Finset.Icc (-1 : ℤ) 1 ×ˢ Finset.Icc (-1 : ℤ) 1).erase (0, 0)).filter fun d =>
      0 ≤ (r : ℤ) + d.1 ∧ (r : ℤ) + d.1 < moduleCount m ∧ 0 ≤ (c : ℤ) + d.2 ∧ (c : ℤ) + d.2 < moduleCount m
        ∧ darkAt m ((r : ℤ) + d.1).toNat ((c : ℤ) + d.2).toNat = darkAt m r c).card
    rule1 m = ∑ r ∈ Finset.range (moduleCount m), ∑ c ∈ Finset.range (moduleCount m),
        (if 5 < k r c then 3 + (k r c - 5) else 0)
      ∧ (∀ r c, k r c ≤ 8)

/-- "An edge or corner module has at most 5 in-range neighbours, so it never contributes" (42_mask_scorer.md section
2, the spec's own inference). -/
def Obligations.EdgeModulesAddNothingToRuleOne : Prop :=
  ∀ (m : PortMatrix) (r c : Nat), r < moduleCount m → c < moduleCount m →
    (r = 0 ∨ c = 0 ∨ r + 1 = moduleCount m ∨ c + 1 = moduleCount m) → sameNeighbours m r c ≤ 5

/-- R73: rule 2 adds 3 for each of the `(n-1)^2` blocks whose four modules share a colour. -/
def Obligations.RuleTwoCountsUniformBlocks : Prop :=
  ∀ m : PortMatrix, rule2 m = 3 * ((Finset.range (moduleCount m - 1) ×ˢ Finset.range (moduleCount m - 1)).filter fun p =>
      darkAt m (p.1 + 1) p.2 = darkAt m p.1 p.2 ∧ darkAt m p.1 (p.2 + 1) = darkAt m p.1 p.2
        ∧ darkAt m (p.1 + 1) (p.2 + 1) = darkAt m p.1 p.2).card
    ∧ (moduleCount m = 1 → rule2 m = 0)

/-- R74: rule 3 adds 40 for each horizontal and each vertical window that spells FP. -/
def Obligations.RuleThreeCountsFinderWindows : Prop :=
  ∀ m : PortMatrix,
    rule3 m = 40 * ((Finset.range (moduleCount m) ×ˢ Finset.range (moduleCount m - 6)).filter fun p =>
        ∀ i : Fin 7, some (darkAt m p.1 (p.2 + i)) = [true, false, true, true, true, false, true][(i : ℕ)]?).card
      + 40 * ((Finset.range (moduleCount m) ×ˢ Finset.range (moduleCount m - 6)).filter fun p =>
        ∀ i : Fin 7, some (darkAt m (p.2 + i) p.1) = [true, false, true, true, true, false, true][(i : ℕ)]?).card
    ∧ (moduleCount m < 7 → rule3 m = 0)

/-- R75, the operation sequence: every operation is one rounded binary64 operation, in both settings of BAL_DIV, on
`D`, the number of dark modules. -/
def Obligations.RuleFourOperationSequence : Prop :=
  ∀ m : PortMatrix,
    let n := moduleCount m
    let d := ((Finset.range n ×ˢ Finset.range n).filter fun p => darkAt m p.1 p.2 = true).card
    d ≤ n * n
      ∧ rule4 .successive m =
        fl64 (fl64 (|fl64 (fl64 (fl64 (fl64 (100 * (d : ℚ)) / (n : ℚ)) / (n : ℚ)) - 50)| / 5) * 10)
      ∧ rule4 .single m =
        fl64 (fl64 (|fl64 (fl64 (fl64 (100 * (d : ℚ)) / ((n : ℚ) * (n : ℚ))) - 50)| / 5) * 10)

/-- The exact facts about T4, for both settings of BAL_DIV, the spec's own inference ("checked exhaustively",
42_mask_scorer.md section 2). -/
def Obligations.BalanceTermExactFacts : Prop :=
  ∀ (b : Config.BalDiv) (n d : ℕ), 1 ≤ n → n ≤ 255 → d ≤ n * n →
    (balanceTerm b n d = 100 ↔ d = 0 ∨ d = n * n) ∧ (balanceTerm b n d = 0 ↔ 2 * d = n * n)
      ∧ 0 ≤ balanceTerm b n d ∧ balanceTerm b n d ≤ 100

/-- The integer terms are summed exactly, so only T4's addition rounds, and the pattern written is the score's
(42_mask_scorer.md section 3; the exactness is the spec's own inference). -/
def Obligations.ScoreRoundsOnce : Prop :=
  ∀ (b : Config.BalDiv) (m : PortMatrix), 1 ≤ moduleCount m →
    scoreValue b m = fl64 (((rule1 m + rule2 m + rule3 m : ℕ) : ℚ) + rule4 b m)
      ∧ fl64 ((rule1 m + rule2 m + rule3 m : ℕ) : ℚ) = ((rule1 m + rule2 m + rule3 m : ℕ) : ℚ)
      ∧ value64 (scoreBits b m) = scoreValue b m

/-- The bounds on the terms and on SCORE, the spec's own inference (42_mask_scorer.md section 3); the pattern is below that of `2^23`, so finite, non-negative and not
−0, NaN or infinity. -/
def Obligations.PenaltyBounds : Prop :=
  ∀ (b : Config.BalDiv) (m : PortMatrix), 1 ≤ moduleCount m →
    rule1 m ≤ 6 * (moduleCount m - 2) ^ 2 ∧ rule2 m ≤ 3 * (moduleCount m - 1) ^ 2
      ∧ rule3 m ≤ 80 * moduleCount m * (moduleCount m - 6) ∧ 40 ∣ rule3 m
      ∧ 0 ≤ rule4 b m ∧ rule4 b m ≤ 100
      ∧ rule1 m + rule2 m + rule3 m < 2 ^ 23
      ∧ 0 ≤ scoreValue b m ∧ scoreValue b m < 2 ^ 23
      ∧ (scoreBits b m).toNat < 0x4160000000000000

/-- The closed form of a uniform matrix, the spec's own inference (42_mask_scorer.md section 3). -/
def Obligations.UniformMatrixScore : Prop :=
  ∀ (b : Config.BalDiv) (m : PortMatrix) (colour : Bool),
    (∀ r c, r < moduleCount m → c < moduleCount m → darkAt m r c = colour) →
    (2 ≤ moduleCount m →
      rule1 m = 6 * (moduleCount m - 2) ^ 2 ∧ rule2 m = 3 * (moduleCount m - 1) ^ 2 ∧ rule3 m = 0
        ∧ rule4 b m = 100
        ∧ scoreValue b m = ((6 * (moduleCount m - 2) ^ 2 + 3 * (moduleCount m - 1) ^ 2 + 100 : ℕ) : ℚ))
    ∧ (moduleCount m = 21 → scoreBits b m = 0x40AB140000000000#64)
    ∧ (moduleCount m = 1 → scoreValue b m = 100)

/-- EVAL's SCORE depends on `(n, Dark)` alone (and on the setting of BAL_DIV, a parameter), whatever else the
two states hold; it writes nothing but SCORE and the completion fields (42_mask_scorer.md section 3, the spec's own
inference). -/
def Obligations.EvalDependsOnlyOnThePort : Prop :=
  ∀ s u : State, s.params.balDiv = u.params.balDiv → moduleCount s.matrix = moduleCount u.matrix →
    moduleCount s.matrix ≠ 0 →
    (∀ r c, r < moduleCount s.matrix → c < moduleCount s.matrix → darkAt s.matrix r c = darkAt u.matrix r c) →
    ∃ s' u', exec (.eval false) s = .next s' ∧ exec (.eval false) u = .next u' ∧ s'.score = u'.score
      ∧ s'.score.isSome = true
      ∧ s' = { s with score := s'.score, pend := none, status := { s.status with busy := false, done := true } }

/-- 00_scope.md section 4: `fl64` is rounding to nearest, ties to even, onto the binary64 values (53 significant bits, no place below
`2^-1074`; the exponent has no upper limit here, notes/assumptions/14.md); `abs` is exact; integers up to `2^53`
convert exactly. -/
def Obligations.RoundingIsNearestTiesToEven : Prop :=
  let Representable := fun (r : ℚ) => ∃ m e : ℤ, |m| < 2 ^ 53 ∧ -1074 ≤ e ∧ r = (m : ℚ) * (2 : ℚ) ^ e
  (∀ q : ℚ, Representable (fl64 q) ∧ (∀ r, Representable r → |fl64 q - q| ≤ |r - q|)
      ∧ (∀ r, Representable r → r ≠ fl64 q → |r - q| = |fl64 q - q| →
          ∃ m e : ℤ, Even m ∧ |m| < 2 ^ 53 ∧ -1074 ≤ e ∧ fl64 q = (m : ℚ) * (2 : ℚ) ^ e
            ∧ (|m| < 2 ^ 52 → e = -1074)))
    ∧ (∀ q : ℚ, absR q = |q|)
    ∧ (∀ k : ℤ, |k| ≤ 2 ^ 53 → fl64 (k : ℚ) = (k : ℚ))

/-! ### Faults of `perform` -/

/-- R54: ABSENT = 1 on any command but SYMSIZE. -/
def Obligations.AbsentOnOtherCommandsFaults : Prop :=
  (∀ (s : State) (i : Instr), i.absentBit = true → (∀ a, i ≠ .symsize a) →
      exec i s = .next { s with
        faults := s.faults ++ [.pfAbsent], pend := none, status := { s.status with busy := false, done := true } })
    ∧ (∀ s t : State, exec (.symsize true) s = .next t →
        t.faults = s.faults ∧ t.status.invarg = true ∧ t.result = some 0#32)

/-- 30_encoding.md section 3 (`perform`): an unwritten operand, on each command that reads ARG. -/
def Obligations.UnwrittenOperandFaults : Prop :=
  ∀ (s : State) (i : Instr), operand s = none → i.absentBit = false → i ≠ .eval false →
    exec i s = .next { s with
      faults := s.faults ++ [.pfUnwrittenArg], pend := none,
      status := { s.status with busy := false, done := true } }

/-- R85: whenever a command records a fault, its effect is that of R85 and nothing else. (What the hardware's RESULT
and SCORE then hold is unspecified; "not written" is the spec's own rule for the model, notes/assumptions/13.md.) -/
def Obligations.PreconditionFaultEffect : Prop :=
  ∀ (s t : State) (i : Instr), exec i s = .next t → t.faults ≠ s.faults →
    ∃ c : FaultCode, t = { s with
      faults := s.faults ++ [c], pend := none, status := { s.status with busy := false, done := true } }

/-- 60_exceptions.md section 3: the order in which `perform` tests, each clause without regard to the later conditions; one report per
command; and on HOST reads, busy before unwritten. -/
def Obligations.FaultPriority : Prop :=
  (∀ (s : State) (p : Pend) (ts : List Turn), s.turns = .core :: ts → s.status.busy = true → s.pend = some p →
      let fault := fun (c : FaultCode) => Host.Outcome.next (φ := Fault) (ρ := Refusal) { s with
        turns := ts, faults := s.faults ++ [c], pend := none,
        status := { s.status with busy := false, done := true } }
      (∀ why, decode (pendWord p) = .illegal why → step s = .next { s with
          turns := ts, pend := none, status := { s.status with busy := false, done := true, illop := true } })
      ∧ (∀ i, decode (pendWord p) = .command i →
          (i.absentBit = true → (∀ a, i ≠ .symsize a) → step s = fault .pfAbsent)
          ∧ (i.absentBit = false → i ≠ .eval false → p.arg = none → step s = fault .pfUnwrittenArg)
          ∧ (∀ v, p.arg = some v → i = .symsize false → (v.toNat < 1 ∨ 40 < v.toNat) → step s = .next { s with
              turns := ts, result := some 0#32, pend := none,
              status := { s.status with busy := false, done := true, invarg := true } })
          ∧ (i = .symsize true → step s = .next { s with
              turns := ts, result := some 0#32, pend := none,
              status := { s.status with busy := false, done := true, invarg := true } })
          ∧ (∀ v, p.arg = some v → i = .totalcw false → (v.toNat < 1 ∨ 40 < v.toNat) → step s = fault .pfVersion)
          ∧ (∀ v, p.arg = some v → i = .fmtenc false → 32 ≤ v.toNat → step s = fault .pfFmtData)
          ∧ (∀ v, p.arg = some v → i = .verenc false → (v.toNat < 7 ∨ 40 < v.toNat) → step s = fault .pfVerData)
          ∧ (i = .eval false → moduleCount s.matrix = 0 → step s = fault .pfMatrix)))
    ∧ (∀ (s t : State) (i : Instr), exec i s = .next t →
        t.status.illop = s.status.illop
          ∧ (t.faults = s.faults ∨ (∃ c, t.faults = s.faults ++ [c]) ∧ t.status.invarg = s.status.invarg))
    ∧ (∀ s : State, s.status.busy = true → readSlot .result s = .error .hfBusyRead
        ∧ readSlot .scoreLo s = .error .hfBusyRead ∧ readSlot .scoreHi s = .error .hfBusyRead)

/-- 10_state.md section 7: what each command's `perform` writes; everything else keeps its value (which codes each
command may record follows `perform`: notes/assumptions/31.md). -/
def Obligations.PerformWriteSets : Prop :=
  (∀ (i : Instr) (s t : State), exec i s = .next t →
      t.params = s.params ∧ t.arg = s.arg ∧ t.matrix = s.matrix ∧ t.hostStopped = s.hostStopped
        ∧ t.script = s.script ∧ t.turns = s.turns ∧ t.reads = s.reads
        ∧ t.pend = none ∧ t.status.busy = false ∧ t.status.done = true ∧ t.status.illop = s.status.illop
        ∧ ((∀ a, i ≠ .symsize a) → t.status.invarg = s.status.invarg)
        ∧ ((∀ a, i ≠ .eval a) → t.score = s.score)
        ∧ ((∃ a, i = .eval a) → t.result = s.result)
        ∧ (t.faults = s.faults ∨ ((∃ c, t.faults = s.faults ++ [c]) ∧ t.result = s.result ∧ t.score = s.score))
        ∧ (t.faults = s.faults → (∀ a, i ≠ .eval a) → t.result.isSome = true)
        ∧ (t.faults = s.faults → (∃ a, i = .eval a) → t.score.isSome = true))
    ∧ (∀ (s t : State) (p : Pend) (why : Illegal), s.pend = some p → decode (pendWord p) = .illegal why →
        perform s = .next t → t = { s with
          pend := none, status := { s.status with busy := false, done := true, illop := true } })

/-! ### The HOST -/

/-- R55: the HOST's write of `w` to CTRL, through the window, as one step. -/
def Obligations.CtrlWriteStartsTheCommand : Prop :=
  ∀ (s : State) (w : Word) (rest : List HostMove) (ts : List Turn),
    s.turns = .host :: ts → s.hostStopped = false → s.script = wr s.params.base 0x04 w :: rest →
    (s.status.busy = false → step s = .next { s with
        turns := ts, script := rest,
        pend := some { opc := w.extractLsb' 0 8, absent := w.getLsbD 8, rsvd := w.extractLsb' 9 23, arg := s.arg },
        status := { busy := true, done := false, invarg := false, illop := false } })
    ∧ (s.status.busy = true → step s = .next { s with
        turns := ts, script := rest, faults := s.faults ++ [.hfBusyWrite], hostStopped := true })

/-- R20: the HOST's write to ARG and read of ARG, through the window; the CORE never writes ARG; ARG is unwritten
from reset. -/
def Obligations.ArgWriteAndRead : Prop :=
  (∀ (s : State) (rest : List HostMove) (ts : List Turn), s.turns = .host :: ts → s.hostStopped = false →
      (∀ v, s.script = wr s.params.base 0x00 v :: rest →
        (s.status.busy = false → step s = .next { s with turns := ts, script := rest, arg := some v })
        ∧ (s.status.busy = true → step s = .next { s with
            turns := ts, script := rest, faults := s.faults ++ [.hfBusyWrite], hostStopped := true }))
      ∧ (s.script = rd s.params.base 0x00 :: rest →
        (∀ v, s.arg = some v → step s = .next { s with turns := ts, script := rest, reads := s.reads ++ [v] })
        ∧ (s.arg = none → step s = .next { s with
            turns := ts, script := rest, faults := s.faults ++ [.hfUnwritten], hostStopped := true })))
    ∧ (∀ s t : State, perform s = .next t → t.arg = s.arg)
    ∧ core.reset.arg = none ∧ (∀ s : State, (assertReset s).arg = none)

/-- 10_state.md section 4, 20_memory.md section 2: the HOST's reads of the other registers, through the window; no
read changes a register. A write to a read-only register is taken and ignored, whatever BUSY is. -/
def Obligations.RegisterReads : Prop :=
  (∀ (s : State) (off : Nat) (v : Word) (rest : List HostMove) (ts : List Turn),
    s.turns = .host :: ts → s.hostStopped = false → s.script = wr s.params.base off v :: rest →
    (off = 0x08 ∨ off = 0x0C ∨ off = 0x10 ∨ off = 0x14) → step s = .next { s with turns := ts, script := rest }) ∧
  ∀ (s : State) (off : Nat) (rest : List HostMove) (ts : List Turn), s.turns = .host :: ts → s.hostStopped = false →
    s.script = rd s.params.base off :: rest →
    let got := fun (v : Word) => Host.Outcome.next (φ := Fault) (ρ := Refusal) { s with
      turns := ts, script := rest, reads := s.reads ++ [v] }
    let fault := fun (c : FaultCode) => Host.Outcome.next (φ := Fault) (ρ := Refusal) { s with
      turns := ts, script := rest, faults := s.faults ++ [c], hostStopped := true }
    (off = 0x04 → step s = got 0#32)
    ∧ (off = 0x08 → step s = got (statusWord s.status))
    ∧ (∀ v, off = 0x0C → s.status.busy = false → s.result = some v → step s = got v)
    ∧ (off = 0x0C → s.status.busy = false → s.result = none → step s = fault .hfUnwritten)
    ∧ (∀ b, off = 0x10 → s.status.busy = false → s.score = some b → step s = got (b.extractLsb' 0 32))
    ∧ (∀ b, off = 0x14 → s.status.busy = false → s.score = some b → step s = got (b.extractLsb' 32 32))
    ∧ ((off = 0x10 ∨ off = 0x14) → s.status.busy = false → s.score = none → step s = fault .hfUnwritten)

/-- R102: what the HOST may and may not do while BUSY = 1. -/
def Obligations.AccessesWhileBusy : Prop :=
  ∀ s : State, s.status.busy = true →
    (∀ v, writeSlot .arg v s = { s with faults := s.faults ++ [.hfBusyWrite], hostStopped := true }
      ∧ writeSlot .ctrl v s = { s with faults := s.faults ++ [.hfBusyWrite], hostStopped := true }
      ∧ writeSlot .status v s = s ∧ writeSlot .result v s = s ∧ writeSlot .scoreLo v s = s
      ∧ writeSlot .scoreHi v s = s)
    ∧ (∀ r, (r = Slot.result ∨ r = Slot.scoreLo ∨ r = Slot.scoreHi) →
        accessSlot r .read s = { s with faults := s.faults ++ [.hfBusyRead], hostStopped := true })
    ∧ accessSlot .status .read s = { s with reads := s.reads ++ [statusWord s.status] }
    ∧ accessSlot .ctrl .read s = { s with reads := s.reads ++ [0#32] }
    ∧ (∀ v, s.arg = some v → accessSlot .arg .read s = { s with reads := s.reads ++ [v] })

/-- 60_exceptions.md section 2: an access that faults records its code, stops the HOST and has no other effect; then the HOST
takes no further step, whatever the turns say, while a latched command is still performed. (That the HOST stays
stopped across a reset, which leaves its script and reads, is notes/assumptions/4.md and 22.md; that the CORE acts
when no turn is laid down is 2.md: the model's.) -/
def Obligations.StoppedHostTakesNoStep : Prop :=
  (∀ (s : State) (r : Slot) (k : AccessKind), (accessSlot r k s).faults ≠ s.faults →
      ∃ c, accessSlot r k s = { s with faults := s.faults ++ [c], hostStopped := true }
        ∧ goodEnd (accessSlot r k s) = false) ∧
  (∀ s t : State, s.hostStopped = true → step s = .next t →
      t.hostStopped = true ∧ t.script = s.script ∧ t.reads = s.reads ∧ t.matrix = s.matrix
        ∧ (t.arg = s.arg ∨ s.turns.head? = some .reset)
        ∧ (s.status.busy = false → t.status = s.status ∨ s.turns.head? = some .reset))
    ∧ (∀ s : State, s.hostStopped = true → s.status.busy = true → s.turns = [] → step s = perform s)

/-- 20_memory.md section 2: the four conditions of admission, and that the HOST is stuck at any other access while a latched command is
still performed. (That the idle machine then answers the named stop, and that the HOST's turn passes, is the model's
form of "stuck": notes/assumptions/5.md.) -/
def Obligations.NonAdmittedAccessIsStuck : Prop :=
  (∀ (base : Nat) (a : Access), admitted base a = true ↔
      (a.width = .word ∧ a.addr % 4 = 0 ∧ base ≤ a.addr ∧ a.addr - base ≤ 0x14 ∧ a.fromOwner = true))
    ∧ (∀ (s : State) (a : Access) (rest : List HostMove), s.script = .access a :: rest →
        admitted s.params.base a = false → s.hostStopped = false →
        (∀ ts, s.turns = .host :: ts → step s = .next { s with turns := ts })
        ∧ (s.turns = [] → s.status.busy = true → step s = perform s)
        ∧ (s.turns = [] → s.status.busy = false → step s = .fault .accessNotAdmitted))

/-- 30_encoding.md section 4: `poll` reads STATUS and is repeated until the read shows DONE = 1. -/
def Obligations.PollRepeatsUntilDone : Prop :=
  ∀ (s : State) (rest : List HostMove) (ts : List Turn), s.turns = .host :: ts → s.hostStopped = false →
    s.script = .poll :: rest →
    (s.status.done = true → step s = .next { s with
      turns := ts, script := rest, reads := s.reads ++ [statusWord s.status] })
    ∧ (s.status.done = false → step s = .next { s with
        turns := ts, reads := s.reads ++ [statusWord s.status] })

/-- 10_state.md section 4: the layout of STATUS; reserved bits read 0. -/
def Obligations.StatusWordLayout : Prop :=
  ∀ st : Status, (statusWord st).getLsbD 0 = st.busy ∧ (statusWord st).getLsbD 1 = st.done
    ∧ (statusWord st).getLsbD 2 = st.invarg ∧ (statusWord st).getLsbD 3 = st.illop
    ∧ (statusWord st).extractLsb' 4 28 = 0#28

/-- 20_memory.md section 2, the spec's own inference. In one state, non-faulting reads of SCORE_LO and SCORE_HI are
the two halves of SCORE. And two HOST reads, each a step of its own, in either order and with any steps between
them but a CTRL write or a reset, return the two halves of one and the same SCORE (a reset empties SCORE; that it
is a turn is notes/assumptions/22.md). `p` lists the states passed through: the first read is the step from `p 0`,
the second the step from `p k`. -/
def Obligations.ScoreReadsAreHalvesOfOneScore : Prop :=
  (∀ (s : State) (lo hi : Word), readSlot .scoreLo s = .ok lo → readSlot .scoreHi s = .ok hi →
      s.score = some (hi ++ lo))
    ∧ (∀ (p : ℕ → State) (k : ℕ) (first second : Nat) (a b : Word),
        let reads := fun (s t : State) (off : Nat) (v : Word) =>
          s.script = rd s.params.base off :: t.script ∧ t.reads = s.reads ++ [v]
        0 < k → (∀ i, i ≤ k → step (p i) = .next (p (i + 1))) →
        reads (p 0) (p 1) first a → reads (p k) (p (k + 1)) second b →
        (∀ i, i < k → (p i).turns.head? ≠ some .reset ∧ ∀ w, (p i).script ≠ wr (p i).params.base 0x04 w :: (p (i + 1)).script) →
        (first = 0x10 → second = 0x14 → (p 0).score = some (b ++ a) ∧ (p k).score = some (b ++ a))
          ∧ (first = 0x14 → second = 0x10 → (p 0).score = some (a ++ b) ∧ (p k).score = some (a ++ b)))

/-- R59: the expansion of every assembler line of R58 and R59, with the operation encodings of R34 and R50 (the level
and mask split is the spec's from general knowledge, notes/assumptions/25.md). -/
def Obligations.AssemblerExpansions : Prop :=
  ∀ base : Nat,
    (∀ (m : Mnemonic) (v : Nat), m ≠ .eval → v < 2 ^ 32 →
      expand base (.command m (.literal v))
        = [wr base 0x00 (BitVec.ofNat 32 v), wr base 0x04 (encode (mnemonicInstr m false)), .poll])
    ∧ expand base (.command .symsize .dash) = [wr base 0x04 0x00000101#32, .poll]
    ∧ expand base (.command .eval .nothing) = [wr base 0x04 0x00000006#32, .poll]
    ∧ (∀ ecl mask, ecl < 4 → mask < 8 →
        expand base (.fmtinfo ecl mask) = expand base (.command .fmtenc (.literal ((ecl <<< 3) ||| mask))))

/-- 42_mask_scorer.md section 4 (the HOST's duty, outside the block; the spec's own inference): the index selected is the least one whose score is minimal under
binary64 `<`. -/
def Obligations.MaskSelectionTakesTheFirstMinimum : Prop :=
  ∀ scores : List Bits64, scores ≠ [] → ∃ (m : Nat) (s : Bits64), selectMask scores = some m ∧ scores[m]? = some s
    ∧ (∀ (k : Nat) (x : Bits64), scores[k]? = some x → value64 s ≤ value64 x)
    ∧ (∀ (k : Nat) (x : Bits64), k < m → scores[k]? = some x → value64 s < value64 x)

/-! ### The machine as a whole -/

/-- R32: the state after the power-on reset, whatever the platform's parameters, port, HOST program and turns; the
host's `reset` is one such state. -/
def Obligations.PowerOnState : Prop :=
  (∀ (p : Config.Params) (m : PortMatrix) (script : List HostMove) (turns : List Turn),
      let s := State.powerOn p m script turns
      s.arg = none ∧ s.result = none ∧ s.score = none ∧ s.pend = none ∧ s.faults = []
        ∧ statusWord s.status = 0x00000000#32 ∧ readSlot .ctrl s = .ok 0#32 ∧ s.matrix = m)
    ∧ (∃ p m, core.reset = State.powerOn p m [] [])
    ∧ (∀ s : State, (assertReset s).faults = s.faults ∧ (assertReset s).matrix = s.matrix)
    ∧ g15.toNat = 0x537 ∧ g18.toNat = 0x1F25 ∧ g15Mask.toNat = 0x5412 ∧ cwTable.length = 41

/-- R99: the reset input, at any time, as one step: a latched command is abandoned, FAULTS and MATRIX are
unchanged, and the next admitted CTRL write starts a command. -/
def Obligations.ResetEvent : Prop :=
  ∀ (s : State) (ts : List Turn), s.turns = .reset :: ts →
    ∃ t, step s = .next t ∧ t.arg = none ∧ t.result = none ∧ t.score = none ∧ t.pend = none
      ∧ statusWord t.status = 0x00000000#32 ∧ t.status = { busy := false, done := false, invarg := false, illop := false }
      ∧ t.faults = s.faults ∧ t.matrix = s.matrix
      ∧ (∀ w, (writeSlot .ctrl w t).status.busy = true ∧ (writeSlot .ctrl w t).pend.map pendWord = some w)

/-- R28: FAULTS is empty at power-on, no step (reset included) removes an entry, each step appends at most one, and a
state with a fault is no good end. `faultRecord` is FAULTS as the list of the codes of 60_exceptions.md section 2's
table: the nine numbers, each the code of one fault. -/
def Obligations.FaultsOnlyGrow : Prop :=
  (∀ s t : State, step s = .next t → t.faults = s.faults ∨ ∃ c, t.faults = s.faults ++ [c])
    ∧ core.reset.faults = []
    ∧ (∀ (c : FaultCode) (s : State), (raiseFault c s).faults = s.faults ++ [c] ∧ (hostFault c s).faults = s.faults ++ [c]
        ∧ faultRecord (raiseFault c s) = faultRecord s ++ [faultNumber c]
        ∧ faultRecord (hostFault c s) = faultRecord s ++ [faultNumber c])
    ∧ [FaultCode.hfBusyWrite, .hfBusyRead, .hfUnwritten, .pfAbsent, .pfUnwrittenArg, .pfVersion, .pfFmtData, .pfVerData,
        .pfMatrix].map faultNumber = [0x01, 0x02, 0x03, 0x10, 0x11, 0x12, 0x13, 0x14, 0x15]
    ∧ (∀ (k : ℕ) (c : FaultCode), faultOfNumber k = some c ↔ faultNumber c = k)
    ∧ (∀ s : State, s.faults ≠ [] → goodEnd s = false)

/-- 10_state.md sections 4 and 7: who writes RESULT and SCORE. Apart from reset, RESULT changes only in the performance of one
of the five integer commands, SCORE only in the performance of EVAL; a HOST access changes neither. -/
def Obligations.ResultAndScoreWriters : Prop :=
  ∀ s t : State, step s = .next t → s.turns.head? ≠ some .reset →
    (t.result ≠ s.result → s.status.busy = true ∧ ∃ p i, s.pend = some p ∧ decode (pendWord p) = .command i
        ∧ ∀ a, i ≠ .eval a)
    ∧ (t.score ≠ s.score → s.status.busy = true ∧ ∃ p, s.pend = some p
        ∧ decode (pendWord p) = .command (.eval false))

/-- 10_state.md section 4, 70_reset_and_hazards.md section 3: ARG changes only by reset, or by a HOST write while
BUSY = 0: the HOST's next operation is a write of some `v` to BASE + 0, it is taken, and ARG is `v` after it. So a
latched command's operand and ARG stand still together. -/
def Obligations.ArgWriters : Prop :=
  ∀ s t : State, step s = .next t → t.arg ≠ s.arg →
    s.turns.head? = some .reset ∧ t.arg = none
      ∨ s.turns.head? ≠ some .reset ∧ s.status.busy = false ∧ s.hostStopped = false ∧ t.status = s.status
        ∧ ∃ v, s.script = wr s.params.base 0x00 v :: t.script ∧ t.arg = some v

/-- 20_memory.md section 3, 70_reset_and_hazards.md section 3: MATRIX changes only by the HOST's presenting another,
never while BUSY = 1; and a HOST that presents one with BUSY = 0 shows it on the port, while with BUSY = 1 its turn
passes (notes/assumptions/12.md, 2.md). The OPEN parameters never change (that they stand in State is
notes/assumptions/7.md). -/
def Obligations.MatrixChangesOnlyWhenIdle : Prop :=
  (∀ s t : State, step s = .next t →
    t.params = s.params
      ∧ (t.matrix ≠ s.matrix → s.status.busy = false ∧ s.hostStopped = false
          ∧ ∃ rest, s.script = .present t.matrix :: rest ∧ t.script = rest))
    ∧ (∀ (s : State) (m : PortMatrix) (rest : List HostMove) (ts : List Turn),
        s.turns = .host :: ts → s.hostStopped = false → s.script = .present m :: rest →
        (s.status.busy = false → step s = .next { s with turns := ts, script := rest, matrix := m })
        ∧ (s.status.busy = true → step s = .next { s with turns := ts }))

/-- 60_exceptions.md section 4: INVARG and ILLOP, once set, stay until a command start or reset clears them: a step
that clears one is a reset, or the HOST's write of some `w` to CTRL, which latches `w`. -/
def Obligations.ErrorFlagsStayUntilTheNextStart : Prop :=
  ∀ s t : State, MachineInv s → step s = .next t →
    (s.status.invarg = true ∧ t.status.invarg = false ∨ s.status.illop = true ∧ t.status.illop = false) →
    s.turns.head? = some .reset ∧ t.status = Status.reset
      ∨ s.turns.head? ≠ some .reset ∧ s.status.busy = false ∧ t.status = statusStarted
        ∧ ∃ w, s.script = wr s.params.base 0x04 w :: t.script ∧ t.pend = some (latch w s.arg)

/-- 10_state.md sections 4 and 5, the spec's own inferences: the invariant holds at power-on, SCORE's too. -/
def Obligations.InvariantsHoldAtPowerOn : Prop :=
  ∀ (p : Config.Params) (m : PortMatrix) (script : List HostMove) (turns : List Turn),
    MachineInv (State.powerOn p m script turns) ∧ ScoreLegal (State.powerOn p m script turns).score

/-- 10_state.md sections 4 and 5, the spec's own inferences: every step keeps the invariant. -/
def Obligations.StepKeepsTheInvariant : Prop :=
  ∀ s t : State, MachineInv s → step s = .next t → MachineInv t

/-- 10_state.md section 4 and 42_mask_scorer.md section 3, the spec's own inferences: every step keeps SCORE finite, non-negative and not −0. -/
def Obligations.StepKeepsScoreLegal : Prop :=
  ∀ s t : State, ScoreLegal s.score → step s = .next t → ScoreLegal t.score

/-- 70_reset_and_hazards.md section 4: with no reset among the turns laid down, a latched command is performed after at most as many steps as
turns laid down and one more: DONE = 1 and BUSY = 0 then. (That `turns` is finite, and that the CORE acts when it is
empty, is the model's form of weak fairness: notes/assumptions/16.md.) -/
def Obligations.LatchedCommandIsPerformed : Prop :=
  ∀ s : State, MachineInv s → s.status.busy = true → Turn.reset ∉ s.turns →
    ∃ (k : Nat) (t : State), k ≤ s.turns.length + 1 ∧ core.run k s = .next t
      ∧ t.status.busy = false ∧ t.status.done = true ∧ t.pend = none

/-- 60_exceptions.md section 6, 70_reset_and_hazards.md section 4: a HOST with nothing left to do and an idle CORE: the run has ended, and the machine stays as it is (the
step that changes nothing is the model's: notes/assumptions/23.md). -/
def Obligations.EndedMachineStaysIdle : Prop :=
  ∀ s : State, s.script = [] → s.status.busy = false → s.hostStopped = false →
    ended s = true ∧ (goodEnd s = true ↔ s.faults = []) ∧ (s.turns = [] → step s = .next s)

/-- 60_exceptions.md section 6 (the list of instances is the model's: notes/assumptions/8.md): instances share no state: a step of one leaves every other as it was, and takes the step that instance takes
by itself. -/
def Obligations.InstancesAreIndependent : Prop :=
  ∀ (p q : Platform) (i : Nat), p.stepAt i = .next q →
    (∀ j, j ≠ i → q.instances[j]? = p.instances[j]?)
      ∧ q.instances.length = p.instances.length
      ∧ (∀ s, p.instances[i]? = some s → ∃ t, step s = .next t ∧ q.instances[i]? = some t)
end

