-- ==== Sys2Proof/Laws/State.lean ====
section
/-! SUPPORT. What every named update of Machine/Ops.lean leaves in every field, one lemma each, so that no later
proof unfolds a record update. -/

namespace Sys2Proof.Machine

section updates
variable (s : State)

@[simp] theorem writeArg_params (v : Word) : (writeArg v s).params = s.params := rfl
@[simp] theorem writeArg_arg (v : Word) : (writeArg v s).arg = some v := rfl
@[simp] theorem writeArg_status (v : Word) : (writeArg v s).status = s.status := rfl
@[simp] theorem writeArg_result (v : Word) : (writeArg v s).result = s.result := rfl
@[simp] theorem writeArg_score (v : Word) : (writeArg v s).score = s.score := rfl
@[simp] theorem writeArg_pend (v : Word) : (writeArg v s).pend = s.pend := rfl
@[simp] theorem writeArg_faults (v : Word) : (writeArg v s).faults = s.faults := rfl
@[simp] theorem writeArg_matrix (v : Word) : (writeArg v s).matrix = s.matrix := rfl
@[simp] theorem writeArg_hostStopped (v : Word) : (writeArg v s).hostStopped = s.hostStopped := rfl
@[simp] theorem writeArg_script (v : Word) : (writeArg v s).script = s.script := rfl
@[simp] theorem writeArg_turns (v : Word) : (writeArg v s).turns = s.turns := rfl
@[simp] theorem writeArg_reads (v : Word) : (writeArg v s).reads = s.reads := rfl

@[simp] theorem writeResult_params (v : Word) : (writeResult v s).params = s.params := rfl
@[simp] theorem writeResult_arg (v : Word) : (writeResult v s).arg = s.arg := rfl
@[simp] theorem writeResult_status (v : Word) : (writeResult v s).status = s.status := rfl
@[simp] theorem writeResult_result (v : Word) : (writeResult v s).result = some v := rfl
@[simp] theorem writeResult_score (v : Word) : (writeResult v s).score = s.score := rfl
@[simp] theorem writeResult_pend (v : Word) : (writeResult v s).pend = s.pend := rfl
@[simp] theorem writeResult_faults (v : Word) : (writeResult v s).faults = s.faults := rfl
@[simp] theorem writeResult_matrix (v : Word) : (writeResult v s).matrix = s.matrix := rfl
@[simp] theorem writeResult_hostStopped (v : Word) : (writeResult v s).hostStopped = s.hostStopped := rfl
@[simp] theorem writeResult_script (v : Word) : (writeResult v s).script = s.script := rfl
@[simp] theorem writeResult_turns (v : Word) : (writeResult v s).turns = s.turns := rfl
@[simp] theorem writeResult_reads (v : Word) : (writeResult v s).reads = s.reads := rfl

@[simp] theorem writeScore_params (b : Bits64) : (writeScore b s).params = s.params := rfl
@[simp] theorem writeScore_arg (b : Bits64) : (writeScore b s).arg = s.arg := rfl
@[simp] theorem writeScore_status (b : Bits64) : (writeScore b s).status = s.status := rfl
@[simp] theorem writeScore_result (b : Bits64) : (writeScore b s).result = s.result := rfl
@[simp] theorem writeScore_score (b : Bits64) : (writeScore b s).score = some b := rfl
@[simp] theorem writeScore_pend (b : Bits64) : (writeScore b s).pend = s.pend := rfl
@[simp] theorem writeScore_faults (b : Bits64) : (writeScore b s).faults = s.faults := rfl
@[simp] theorem writeScore_matrix (b : Bits64) : (writeScore b s).matrix = s.matrix := rfl
@[simp] theorem writeScore_hostStopped (b : Bits64) : (writeScore b s).hostStopped = s.hostStopped := rfl
@[simp] theorem writeScore_script (b : Bits64) : (writeScore b s).script = s.script := rfl
@[simp] theorem writeScore_turns (b : Bits64) : (writeScore b s).turns = s.turns := rfl
@[simp] theorem writeScore_reads (b : Bits64) : (writeScore b s).reads = s.reads := rfl

@[simp] theorem writeInvarg_params (b : Bool) : (writeInvarg b s).params = s.params := rfl
@[simp] theorem writeInvarg_arg (b : Bool) : (writeInvarg b s).arg = s.arg := rfl
@[simp] theorem writeInvarg_status (b : Bool) : (writeInvarg b s).status = statusInvarg b s.status := rfl
@[simp] theorem writeInvarg_result (b : Bool) : (writeInvarg b s).result = s.result := rfl
@[simp] theorem writeInvarg_score (b : Bool) : (writeInvarg b s).score = s.score := rfl
@[simp] theorem writeInvarg_pend (b : Bool) : (writeInvarg b s).pend = s.pend := rfl
@[simp] theorem writeInvarg_faults (b : Bool) : (writeInvarg b s).faults = s.faults := rfl
@[simp] theorem writeInvarg_matrix (b : Bool) : (writeInvarg b s).matrix = s.matrix := rfl
@[simp] theorem writeInvarg_hostStopped (b : Bool) : (writeInvarg b s).hostStopped = s.hostStopped := rfl
@[simp] theorem writeInvarg_script (b : Bool) : (writeInvarg b s).script = s.script := rfl
@[simp] theorem writeInvarg_turns (b : Bool) : (writeInvarg b s).turns = s.turns := rfl
@[simp] theorem writeInvarg_reads (b : Bool) : (writeInvarg b s).reads = s.reads := rfl

@[simp] theorem writeIllop_params : (writeIllop s).params = s.params := rfl
@[simp] theorem writeIllop_arg : (writeIllop s).arg = s.arg := rfl
@[simp] theorem writeIllop_status : (writeIllop s).status = statusIllop s.status := rfl
@[simp] theorem writeIllop_result : (writeIllop s).result = s.result := rfl
@[simp] theorem writeIllop_score : (writeIllop s).score = s.score := rfl
@[simp] theorem writeIllop_pend : (writeIllop s).pend = s.pend := rfl
@[simp] theorem writeIllop_faults : (writeIllop s).faults = s.faults := rfl
@[simp] theorem writeIllop_matrix : (writeIllop s).matrix = s.matrix := rfl
@[simp] theorem writeIllop_hostStopped : (writeIllop s).hostStopped = s.hostStopped := rfl
@[simp] theorem writeIllop_script : (writeIllop s).script = s.script := rfl
@[simp] theorem writeIllop_turns : (writeIllop s).turns = s.turns := rfl
@[simp] theorem writeIllop_reads : (writeIllop s).reads = s.reads := rfl

@[simp] theorem complete_params : (complete s).params = s.params := rfl
@[simp] theorem complete_arg : (complete s).arg = s.arg := rfl
@[simp] theorem complete_status : (complete s).status = statusCompleted s.status := rfl
@[simp] theorem complete_result : (complete s).result = s.result := rfl
@[simp] theorem complete_score : (complete s).score = s.score := rfl
@[simp] theorem complete_pend : (complete s).pend = none := rfl
@[simp] theorem complete_faults : (complete s).faults = s.faults := rfl
@[simp] theorem complete_matrix : (complete s).matrix = s.matrix := rfl
@[simp] theorem complete_hostStopped : (complete s).hostStopped = s.hostStopped := rfl
@[simp] theorem complete_script : (complete s).script = s.script := rfl
@[simp] theorem complete_turns : (complete s).turns = s.turns := rfl
@[simp] theorem complete_reads : (complete s).reads = s.reads := rfl

@[simp] theorem recordFault_params (c : FaultCode) : (recordFault c s).params = s.params := rfl
@[simp] theorem recordFault_arg (c : FaultCode) : (recordFault c s).arg = s.arg := rfl
@[simp] theorem recordFault_status (c : FaultCode) : (recordFault c s).status = s.status := rfl
@[simp] theorem recordFault_result (c : FaultCode) : (recordFault c s).result = s.result := rfl
@[simp] theorem recordFault_score (c : FaultCode) : (recordFault c s).score = s.score := rfl
@[simp] theorem recordFault_pend (c : FaultCode) : (recordFault c s).pend = s.pend := rfl
@[simp] theorem recordFault_faults (c : FaultCode) : (recordFault c s).faults = s.faults ++ [c] := rfl
@[simp] theorem recordFault_matrix (c : FaultCode) : (recordFault c s).matrix = s.matrix := rfl
@[simp] theorem recordFault_hostStopped (c : FaultCode) : (recordFault c s).hostStopped = s.hostStopped := rfl
@[simp] theorem recordFault_script (c : FaultCode) : (recordFault c s).script = s.script := rfl
@[simp] theorem recordFault_turns (c : FaultCode) : (recordFault c s).turns = s.turns := rfl
@[simp] theorem recordFault_reads (c : FaultCode) : (recordFault c s).reads = s.reads := rfl

@[simp] theorem raiseFault_params (c : FaultCode) : (raiseFault c s).params = s.params := rfl
@[simp] theorem raiseFault_arg (c : FaultCode) : (raiseFault c s).arg = s.arg := rfl
@[simp] theorem raiseFault_status (c : FaultCode) : (raiseFault c s).status = statusCompleted s.status := rfl
@[simp] theorem raiseFault_result (c : FaultCode) : (raiseFault c s).result = s.result := rfl
@[simp] theorem raiseFault_score (c : FaultCode) : (raiseFault c s).score = s.score := rfl
@[simp] theorem raiseFault_pend (c : FaultCode) : (raiseFault c s).pend = none := rfl
@[simp] theorem raiseFault_faults (c : FaultCode) : (raiseFault c s).faults = s.faults ++ [c] := rfl
@[simp] theorem raiseFault_matrix (c : FaultCode) : (raiseFault c s).matrix = s.matrix := rfl
@[simp] theorem raiseFault_hostStopped (c : FaultCode) : (raiseFault c s).hostStopped = s.hostStopped := rfl
@[simp] theorem raiseFault_script (c : FaultCode) : (raiseFault c s).script = s.script := rfl
@[simp] theorem raiseFault_turns (c : FaultCode) : (raiseFault c s).turns = s.turns := rfl
@[simp] theorem raiseFault_reads (c : FaultCode) : (raiseFault c s).reads = s.reads := rfl

@[simp] theorem hostFault_params (c : FaultCode) : (hostFault c s).params = s.params := rfl
@[simp] theorem hostFault_arg (c : FaultCode) : (hostFault c s).arg = s.arg := rfl
@[simp] theorem hostFault_status (c : FaultCode) : (hostFault c s).status = s.status := rfl
@[simp] theorem hostFault_result (c : FaultCode) : (hostFault c s).result = s.result := rfl
@[simp] theorem hostFault_score (c : FaultCode) : (hostFault c s).score = s.score := rfl
@[simp] theorem hostFault_pend (c : FaultCode) : (hostFault c s).pend = s.pend := rfl
@[simp] theorem hostFault_faults (c : FaultCode) : (hostFault c s).faults = s.faults ++ [c] := rfl
@[simp] theorem hostFault_matrix (c : FaultCode) : (hostFault c s).matrix = s.matrix := rfl
@[simp] theorem hostFault_hostStopped (c : FaultCode) : (hostFault c s).hostStopped = true := rfl
@[simp] theorem hostFault_script (c : FaultCode) : (hostFault c s).script = s.script := rfl
@[simp] theorem hostFault_turns (c : FaultCode) : (hostFault c s).turns = s.turns := rfl
@[simp] theorem hostFault_reads (c : FaultCode) : (hostFault c s).reads = s.reads := rfl

@[simp] theorem startCommand_params (w : Word) : (startCommand w s).params = s.params := rfl
@[simp] theorem startCommand_arg (w : Word) : (startCommand w s).arg = s.arg := rfl
@[simp] theorem startCommand_status (w : Word) : (startCommand w s).status = statusStarted := rfl
@[simp] theorem startCommand_result (w : Word) : (startCommand w s).result = s.result := rfl
@[simp] theorem startCommand_score (w : Word) : (startCommand w s).score = s.score := rfl
@[simp] theorem startCommand_pend (w : Word) : (startCommand w s).pend = some (latch w s.arg) := rfl
@[simp] theorem startCommand_faults (w : Word) : (startCommand w s).faults = s.faults := rfl
@[simp] theorem startCommand_matrix (w : Word) : (startCommand w s).matrix = s.matrix := rfl
@[simp] theorem startCommand_hostStopped (w : Word) : (startCommand w s).hostStopped = s.hostStopped := rfl
@[simp] theorem startCommand_script (w : Word) : (startCommand w s).script = s.script := rfl
@[simp] theorem startCommand_turns (w : Word) : (startCommand w s).turns = s.turns := rfl
@[simp] theorem startCommand_reads (w : Word) : (startCommand w s).reads = s.reads := rfl

@[simp] theorem performIllegal_params : (performIllegal s).params = s.params := rfl
@[simp] theorem performIllegal_arg : (performIllegal s).arg = s.arg := rfl
@[simp] theorem performIllegal_status : (performIllegal s).status = statusCompleted (statusIllop s.status) := rfl
@[simp] theorem performIllegal_result : (performIllegal s).result = s.result := rfl
@[simp] theorem performIllegal_score : (performIllegal s).score = s.score := rfl
@[simp] theorem performIllegal_pend : (performIllegal s).pend = none := rfl
@[simp] theorem performIllegal_faults : (performIllegal s).faults = s.faults := rfl
@[simp] theorem performIllegal_matrix : (performIllegal s).matrix = s.matrix := rfl
@[simp] theorem performIllegal_hostStopped : (performIllegal s).hostStopped = s.hostStopped := rfl
@[simp] theorem performIllegal_script : (performIllegal s).script = s.script := rfl
@[simp] theorem performIllegal_turns : (performIllegal s).turns = s.turns := rfl
@[simp] theorem performIllegal_reads : (performIllegal s).reads = s.reads := rfl

@[simp] theorem assertReset_params : (assertReset s).params = s.params := rfl
@[simp] theorem assertReset_arg : (assertReset s).arg = none := rfl
@[simp] theorem assertReset_status : (assertReset s).status = Status.reset := rfl
@[simp] theorem assertReset_result : (assertReset s).result = none := rfl
@[simp] theorem assertReset_score : (assertReset s).score = none := rfl
@[simp] theorem assertReset_pend : (assertReset s).pend = none := rfl
@[simp] theorem assertReset_faults : (assertReset s).faults = s.faults := rfl
@[simp] theorem assertReset_matrix : (assertReset s).matrix = s.matrix := rfl
@[simp] theorem assertReset_hostStopped : (assertReset s).hostStopped = s.hostStopped := rfl
@[simp] theorem assertReset_script : (assertReset s).script = s.script := rfl
@[simp] theorem assertReset_turns : (assertReset s).turns = s.turns := rfl
@[simp] theorem assertReset_reads : (assertReset s).reads = s.reads := rfl

@[simp] theorem logRead_params (v : Word) : (logRead v s).params = s.params := rfl
@[simp] theorem logRead_arg (v : Word) : (logRead v s).arg = s.arg := rfl
@[simp] theorem logRead_status (v : Word) : (logRead v s).status = s.status := rfl
@[simp] theorem logRead_result (v : Word) : (logRead v s).result = s.result := rfl
@[simp] theorem logRead_score (v : Word) : (logRead v s).score = s.score := rfl
@[simp] theorem logRead_pend (v : Word) : (logRead v s).pend = s.pend := rfl
@[simp] theorem logRead_faults (v : Word) : (logRead v s).faults = s.faults := rfl
@[simp] theorem logRead_matrix (v : Word) : (logRead v s).matrix = s.matrix := rfl
@[simp] theorem logRead_hostStopped (v : Word) : (logRead v s).hostStopped = s.hostStopped := rfl
@[simp] theorem logRead_script (v : Word) : (logRead v s).script = s.script := rfl
@[simp] theorem logRead_turns (v : Word) : (logRead v s).turns = s.turns := rfl
@[simp] theorem logRead_reads (v : Word) : (logRead v s).reads = s.reads ++ [v] := rfl

end updates

section flags
variable (st : Status)

@[simp] theorem statusCompleted_busy : (statusCompleted st).busy = false := rfl
@[simp] theorem statusCompleted_done : (statusCompleted st).done = true := rfl
@[simp] theorem statusCompleted_invarg : (statusCompleted st).invarg = st.invarg := rfl
@[simp] theorem statusCompleted_illop : (statusCompleted st).illop = st.illop := rfl
@[simp] theorem statusInvarg_busy (b : Bool) : (statusInvarg b st).busy = st.busy := rfl
@[simp] theorem statusInvarg_done (b : Bool) : (statusInvarg b st).done = st.done := rfl
@[simp] theorem statusInvarg_invarg (b : Bool) : (statusInvarg b st).invarg = b := rfl
@[simp] theorem statusInvarg_illop (b : Bool) : (statusInvarg b st).illop = st.illop := rfl
@[simp] theorem statusIllop_busy : (statusIllop st).busy = st.busy := rfl
@[simp] theorem statusIllop_done : (statusIllop st).done = st.done := rfl
@[simp] theorem statusIllop_invarg : (statusIllop st).invarg = st.invarg := rfl
@[simp] theorem statusIllop_illop : (statusIllop st).illop = true := rfl
@[simp] theorem statusStarted_busy : statusStarted.busy = true := rfl
@[simp] theorem statusReset_busy : Status.reset.busy = false := rfl
@[simp] theorem statusStarted_done : statusStarted.done = false := rfl
@[simp] theorem statusReset_done : Status.reset.done = false := rfl
@[simp] theorem statusStarted_invarg : statusStarted.invarg = false := rfl
@[simp] theorem statusReset_invarg : Status.reset.invarg = false := rfl
@[simp] theorem statusStarted_illop : statusStarted.illop = false := rfl
@[simp] theorem statusReset_illop : Status.reset.illop = false := rfl

end flags

end Sys2Proof.Machine
end

