-- ==== Sys2Proof/Laws/Ops.lean ====
section
/-! SUPPORT. What the shared operations can do, one lemma each. -/

namespace Sys2Proof.Machine

/-- The CTRL word of a fresh latch is the word that was written: no bit of it is dropped. -/
@[simp] theorem pendWord_latch (w : Word) (a : Option Word) : pendWord (latch w a) = w := by
  apply BitVec.eq_of_getLsbD_eq
  intro i hi
  simp only [pendWord, latch, ctrlWord, opcField, absentField, rsvdField, BitVec.getLsbD_append,
    BitVec.getLsbD_extractLsb', BitVec.getLsbD_ofBool]
  rcases Nat.lt_trichotomy i 8 with h | rfl | h
  · simp [h]
  · simp
  · have h9 : ¬ i - 8 < 1 := by omega
    have h8 : ¬ i < 8 := by omega
    have : i - 8 - 1 < 23 := by omega
    simp only [h8, h9, if_false, this, decide_true, Bool.true_and]
    congr 1
    omega

@[simp] theorem latch_arg (w : Word) (a : Option Word) : (latch w a).arg = a := rfl

/-- The codes of R84 are those of `faultNumber`, and each names one fault. -/
theorem faultOfNumber_eq_some {k : Nat} {c : FaultCode} : faultOfNumber k = some c ↔ faultNumber c = k := by
  constructor
  · intro h
    unfold faultOfNumber at h
    split at h <;> cases h <;> rfl
  · rintro rfl
    cases c <;> rfl

theorem faultNumber_injective : Function.Injective faultNumber := fun _ _ h =>
  Option.some.inj ((faultOfNumber_eq_some.2 rfl).symm.trans (faultOfNumber_eq_some.2 h.symm))

@[simp] theorem faultRecord_raiseFault (c : FaultCode) (s : State) :
    faultRecord (raiseFault c s) = faultRecord s ++ [faultNumber c] := List.map_append

@[simp] theorem faultRecord_hostFault (c : FaultCode) (s : State) :
    faultRecord (hostFault c s) = faultRecord s ++ [faultNumber c] := List.map_append

/-- A command started from `s` has ARG as its operand (R46, R55). -/
@[simp] theorem operand_startCommand (w : Word) (s : State) : operand (startCommand w s) = s.arg := rfl

/-- Everything `runOnArg` can do: a fault of its order, or RESULT written, both completed. -/
theorem runOnArg_cases (absent : Bool) (f : Nat → Except FaultCode Nat) (s : State) :
    (∃ c, runOnArg absent f s = raiseFault c s)
      ∨ (∃ v r, absent = false ∧ operand s = some v ∧ f v.toNat = .ok r
          ∧ runOnArg absent f s = complete (writeResult (zext32 r) s)) := by
  cases absent with
  | true => exact .inl ⟨.pfAbsent, rfl⟩
  | false =>
    cases ho : operand s with
    | none => exact .inl ⟨.pfUnwrittenArg, by simp [runOnArg, ho]⟩
    | some v =>
      cases hf : f v.toNat with
      | error c => exact .inl ⟨c, by simp [runOnArg, ho, hf]⟩
      | ok r => exact .inr ⟨v, r, rfl, rfl, hf, by simp [runOnArg, ho, hf]⟩

/-- The result case of `runOnArg`, by its own conditions. -/
theorem runOnArg_ok {f : Nat → Except FaultCode Nat} {s : State} {v : Word} {r : Nat}
    (ho : operand s = some v) (hf : f v.toNat = .ok r) :
    runOnArg false f s = complete (writeResult (zext32 r) s) := by
  simp [runOnArg, ho, hf]

/-- The precondition case of `runOnArg`. -/
theorem runOnArg_error {f : Nat → Except FaultCode Nat} {s : State} {v : Word} {c : FaultCode}
    (ho : operand s = some v) (hf : f v.toNat = .error c) : runOnArg false f s = raiseFault c s := by
  simp [runOnArg, ho, hf]

end Sys2Proof.Machine
end

