-- ==== Sys2Proof/Laws/Exec.lean ====
section
/-! SUPPORT. What `exec` can do, said once: later proofs cite `exec_cases` and never unfold a meaning. -/

namespace Sys2Proof.Machine

/-- Everything the performance of a command can be: a recorded fault; SYMSIZE with RESULT and INVARG; another
integer command with RESULT; EVAL with SCORE. Each is completed. -/
inductive ExecResult (i : Instr) (s : State) : State → Prop
  | fault (c : FaultCode) : ExecResult i s (raiseFault c s)
  | size (a b : Bool) (v : Word) (hi : i = .symsize a) (hv : v.toNat ≤ 177) :
      ExecResult i s (complete (writeInvarg b (writeResult v s)))
  | result (v x : Word) (r : Nat) (ho : operand s = some x)
      (hr : (i = .totalcw false ∧ totalcwRule x.toNat = .ok r) ∨ (i = .bitlen false ∧ bitlenRule x.toNat = .ok r)
        ∨ (i = .fmtenc false ∧ fmtencRule x.toNat = .ok r) ∨ (i = .verenc false ∧ verencRule x.toNat = .ok r))
      (hv : v = zext32 r) : ExecResult i s (complete (writeResult v s))
  | score (hi : i = .eval false) (hn : moduleCount s.matrix ≠ 0) :
      ExecResult i s (complete (writeScore (scoreBits s.params.balDiv s.matrix) s))

/-- A command always answers a next state, and that state is one of `ExecResult`. -/
theorem exec_cases (i : Instr) (s : State) : ∃ t, exec i s = .next t ∧ ExecResult i s t := by
  cases i with
  | symsize a =>
    refine ⟨_, rfl, ?_⟩
    cases a with
    | true => exact .size true true 0#32 rfl (by decide)
    | false =>
      cases ho : operand s with
      | none => simpa [ho] using ExecResult.fault (i := .symsize false) (s := s) .pfUnwrittenArg
      | some v =>
        by_cases hv : versionOk v.toNat = true
        · have hb : (zext32 (symbolSize v.toNat)).toNat ≤ 177 := by
            simp only [versionOk, decide_eq_true_eq] at hv
            simp only [symbolSize, BitVec.toNat_ofNat]
            omega
          simpa [ho, hv] using ExecResult.size (i := .symsize false) (s := s) false false _ rfl hb
        · simpa [ho, hv, symsizeInvalid] using
            ExecResult.size (i := .symsize false) (s := s) false true 0#32 rfl (by decide)
  | totalcw a =>
    refine ⟨_, rfl, ?_⟩
    rcases runOnArg_cases a totalcwRule s with ⟨c, h⟩ | ⟨v, r, rfl, ho, hf, h⟩ <;> rw [h]
    · exact .fault c
    · exact .result _ v r ho (.inl ⟨rfl, hf⟩) rfl
  | bitlen a =>
    refine ⟨_, rfl, ?_⟩
    rcases runOnArg_cases a bitlenRule s with ⟨c, h⟩ | ⟨v, r, rfl, ho, hf, h⟩ <;> rw [h]
    · exact .fault c
    · exact .result _ v r ho (.inr (.inl ⟨rfl, hf⟩)) rfl
  | fmtenc a =>
    refine ⟨_, rfl, ?_⟩
    rcases runOnArg_cases a fmtencRule s with ⟨c, h⟩ | ⟨v, r, rfl, ho, hf, h⟩ <;> rw [h]
    · exact .fault c
    · exact .result _ v r ho (.inr (.inr (.inl ⟨rfl, hf⟩))) rfl
  | verenc a =>
    refine ⟨_, rfl, ?_⟩
    rcases runOnArg_cases a verencRule s with ⟨c, h⟩ | ⟨v, r, rfl, ho, hf, h⟩ <;> rw [h]
    · exact .fault c
    · exact .result _ v r ho (.inr (.inr (.inr ⟨rfl, hf⟩))) rfl
  | eval a =>
    refine ⟨_, rfl, ?_⟩
    cases a with
    | true => exact .fault .pfAbsent
    | false =>
      by_cases hn : moduleCount s.matrix = 0
      · simpa [hn] using ExecResult.fault (i := .eval false) (s := s) .pfMatrix
      · simpa [hn] using ExecResult.score (s := s) rfl hn

/-- The same, for a next state already named. -/
theorem exec_inv {i : Instr} {s t : State} (h : exec i s = .next t) : ExecResult i s t := by
  obtain ⟨u, hu, hr⟩ := exec_cases i s
  rw [hu] at h
  cases h
  exact hr

end Sys2Proof.Machine
end

