-- ==== Sys2Proof/Laws/Float64.lean ====
section
/-! SUPPORT. The small lemmas of the binary64 rounding. -/

namespace Sys2Proof.Machine

theorem pow2_eq_zpow (e : Int) : pow2 e = (2 : ℚ) ^ e := by
  cases e with
  | ofNat k => simp [pow2]
  | negSucc k => simp [pow2, zpow_negSucc]

theorem pow2_pos (e : Int) : 0 < pow2 e := by
  rw [pow2_eq_zpow]
  positivity

theorem pow2_add (a b : Int) : pow2 (a + b) = pow2 a * pow2 b := by
  rw [pow2_eq_zpow, pow2_eq_zpow, pow2_eq_zpow, zpow_add₀ (by norm_num)]

/-- `roundEven` as floor plus a tie rule. -/
theorem roundEven_eq (x : Rat) : roundEven x = ⌊x⌋ ∨ roundEven x = ⌊x⌋ + 1 := by
  unfold roundEven
  have : x.floor = ⌊x⌋ := rfl
  simp only [this]
  split_ifs <;> simp

/-- `roundEven` is a nearest integer. -/
theorem roundEven_near (x : Rat) : |(roundEven x : ℚ) - x| ≤ 1 / 2 := by
  have h1 := Int.floor_le x
  have h2 := Int.lt_floor_add_one x
  unfold roundEven
  have : x.floor = ⌊x⌋ := rfl
  simp only [this]
  rw [abs_le]
  split_ifs <;> push_cast <;> constructor <;> linarith

@[simp] theorem roundEven_intCast (k : Int) : roundEven (k : ℚ) = k := by
  unfold roundEven
  have : ((k : ℚ)).floor = k := by
    change ⌊(k : ℚ)⌋ = k
    simp
  simp [this]

/-- `roundEven` keeps the order. -/
theorem roundEven_mono {x y : Rat} (h : x ≤ y) : roundEven x ≤ roundEven y := by
  by_contra hc
  push Not at hc
  have hx := abs_le.1 (roundEven_near x)
  have hy := abs_le.1 (roundEven_near y)
  have hc' : (roundEven y : ℚ) + 1 ≤ roundEven x := by exact_mod_cast hc
  have hxy : x = y := by linarith [hx.1, hx.2, hy.1, hy.2]
  rw [hxy] at hc
  exact lt_irrefl _ hc

/-- `floorLog2` is the exponent of the binade of `num/den`. -/
theorem floorLog2_spec {num den : Nat} (hn : num ≠ 0) (hd : den ≠ 0) :
    pow2 (floorLog2 num den) ≤ (num : ℚ) / den ∧ (num : ℚ) / den < pow2 (floorLog2 num den + 1) := by
  have n1 : (2 : ℚ) ^ (Nat.log2 num : Int) ≤ num := by exact_mod_cast Nat.log2_self_le hn
  have n2 : (num : ℚ) < (2 : ℚ) ^ ((Nat.log2 num : Int) + 1) := by exact_mod_cast Nat.lt_log2_self
  have d1 : (2 : ℚ) ^ (Nat.log2 den : Int) ≤ den := by exact_mod_cast Nat.log2_self_le hd
  have d2 : (den : ℚ) < (2 : ℚ) ^ ((Nat.log2 den : Int) + 1) := by exact_mod_cast Nat.lt_log2_self
  have dpos : (0 : ℚ) < den := by exact_mod_cast Nat.pos_of_ne_zero hd
  generalize hk : (Nat.log2 num : Int) - (Nat.log2 den : Int) = k
  have ht : (den * 2 ^ k.toNat ≤ num * 2 ^ (-k).toNat) ↔ (2 : ℚ) ^ k ≤ (num : ℚ) / den := by
    rw [le_div_iff₀ dpos]
    rcases Int.le_total 0 k with h | h
    · obtain ⟨j, rfl⟩ := Int.eq_ofNat_of_zero_le h
      have : (-(j : Int)).toNat = 0 := by omega
      simp only [this, Int.toNat_natCast, pow_zero, mul_one, zpow_natCast]
      rw [← Nat.cast_le (α := ℚ)]
      push_cast
      rw [mul_comm]
    · obtain ⟨j, hj⟩ := Int.eq_ofNat_of_zero_le (Int.neg_nonneg_of_nonpos h)
      have hkj : k = -(j : Int) := by omega
      subst hkj
      have : (-(j : Int)).toNat = 0 := by omega
      simp only [this, neg_neg, Int.toNat_natCast, pow_zero, mul_one, zpow_neg, zpow_natCast]
      rw [← Nat.cast_le (α := ℚ), inv_mul_le_iff₀ (by positivity)]
      push_cast
      rw [mul_comm]
  have hup : (num : ℚ) / den < (2 : ℚ) ^ (k + 1) := by
    rw [div_lt_iff₀ dpos]
    calc (num : ℚ) < 2 ^ ((Nat.log2 num : Int) + 1) := n2
      _ = 2 ^ (k + 1) * 2 ^ (Nat.log2 den : Int) := by rw [← zpow_add₀ (by norm_num)]; congr 1; omega
      _ ≤ 2 ^ (k + 1) * den := by gcongr
  have hlo : (2 : ℚ) ^ (k - 1) ≤ (num : ℚ) / den := by
    rw [le_div_iff₀ dpos]
    calc (2 : ℚ) ^ (k - 1) * den ≤ 2 ^ (k - 1) * 2 ^ ((Nat.log2 den : Int) + 1) := by gcongr
      _ = 2 ^ (Nat.log2 num : Int) := by rw [← zpow_add₀ (by norm_num)]; congr 1; omega
      _ ≤ num := n1
  unfold floorLog2
  rw [hk]
  simp only [pow2_eq_zpow]
  split_ifs with hc
  · exact ⟨ht.1 hc, hup⟩
  · refine ⟨hlo, ?_⟩
    rw [sub_add_cancel]
    exact not_le.1 fun h => hc (ht.2 h)

/-- The unit of the last place of a normal value: `2^52` units are at most the value, `2^53` are more. -/
theorem floorLog2_rat {q : Rat} (hq : q ≠ 0) :
    pow2 (floorLog2 q.num.natAbs q.den) ≤ |q| ∧ |q| < pow2 (floorLog2 q.num.natAbs q.den + 1) := by
  have habs : ((q.num.natAbs : ℚ)) / q.den = |q| := by
    rw [Nat.cast_natAbs, Int.cast_abs]
    conv_rhs => rw [← Rat.num_div_den q]
    rw [abs_div, Nat.abs_cast]
  have := floorLog2_spec (num := q.num.natAbs) (den := q.den) (by simpa using hq) q.den_nz
  rwa [habs] at this

/-- A value is below `2^53` units of its own last place. -/
theorem abs_lt_ulp (q : Rat) : |q| < pow2 (ulpExp q + 53) := by
  unfold ulpExp
  split
  · subst q
    simpa using pow2_pos _
  · rename_i hq
    refine lt_of_lt_of_le (floorLog2_rat hq).2 ?_
    rw [pow2_eq_zpow, pow2_eq_zpow]
    exact zpow_le_zpow_right₀ (by norm_num) (by omega)

/-- A value whose last place is not the smallest one is at least `2^52` units of it. -/
theorem ulp_le_abs {q : Rat} (h : -1074 < ulpExp q) : pow2 (ulpExp q + 52) ≤ |q| := by
  unfold ulpExp at h ⊢
  split at h
  · omega
  · rename_i hq
    rw [if_neg hq]
    refine le_trans (le_of_eq ?_) (floorLog2_rat hq).1
    congr 1
    omega

theorem ulpExp_ge (q : Rat) : -1074 ≤ ulpExp q := by
  unfold ulpExp
  split <;> omega

/-- The binary64 values of R12 as rationals: 53 significant bits, no place below `2^-1074`. -/
def Rep53 (r : Rat) : Prop := ∃ m e : Int, |m| < 2 ^ 53 ∧ -1074 ≤ e ∧ r = (m : ℚ) * pow2 e

/-- Rounding moves a value by at most half a unit of its last place. -/
theorem fl64_near (q : Rat) : |fl64 q - q| ≤ pow2 (ulpExp q) / 2 := by
  have hu := pow2_pos (ulpExp q)
  have h := roundEven_near (q / pow2 (ulpExp q))
  have : fl64 q - q = ((roundEven (q / pow2 (ulpExp q)) : ℚ) - q / pow2 (ulpExp q)) * pow2 (ulpExp q) := by
    unfold fl64
    field_simp
  rw [this, abs_mul, abs_of_pos hu]
  nlinarith

/-- A whole number of units above `q` stays above the rounded value. -/
theorem fl64_le_units {q : Rat} {j : Int} (h : q ≤ (j : ℚ) * pow2 (ulpExp q)) :
    fl64 q ≤ (j : ℚ) * pow2 (ulpExp q) := by
  have hu := pow2_pos (ulpExp q)
  have : roundEven (q / pow2 (ulpExp q)) ≤ j := by
    rw [← roundEven_intCast j]
    exact roundEven_mono ((div_le_iff₀ hu).2 h)
  exact mul_le_mul_of_nonneg_right (by exact_mod_cast this) hu.le

/-- A whole number of units below `q` stays below the rounded value. -/
theorem units_le_fl64 {q : Rat} {j : Int} (h : (j : ℚ) * pow2 (ulpExp q) ≤ q) :
    (j : ℚ) * pow2 (ulpExp q) ≤ fl64 q := by
  have hu := pow2_pos (ulpExp q)
  have : j ≤ roundEven (q / pow2 (ulpExp q)) := by
    rw [← roundEven_intCast j]
    exact roundEven_mono ((le_div_iff₀ hu).2 h)
  exact mul_le_mul_of_nonneg_right (by exact_mod_cast this) hu.le

/-- A binary64 value is a whole number of units of any `q` whose last place is not coarser. -/
theorem rep_units {m e f : Int} (h : f ≤ e) : (m : ℚ) * pow2 e = ((m * 2 ^ (e - f).toNat : Int) : ℚ) * pow2 f := by
  obtain ⟨d, hd⟩ := Int.eq_ofNat_of_zero_le (Int.sub_nonneg_of_le h)
  have he : e = d + f := by omega
  subst he
  rw [pow2_add, pow2_eq_zpow (d : Int)]
  push_cast
  simp [mul_assoc]

/-- A binary64 value with a finer last place than `q`'s is smaller than the whole binade of `q`. -/
theorem rep_small {q : Rat} {m e : Int} (hm : |m| < 2 ^ 53) (he : -1074 ≤ e) (h : e < ulpExp q) :
    |(m : ℚ) * pow2 e| < pow2 (ulpExp q + 52) ∧ pow2 (ulpExp q + 52) ≤ |q| := by
  refine ⟨?_, ulp_le_abs (by omega)⟩
  have he' := pow2_pos e
  have hm' : |(m : ℚ)| < 2 ^ 53 := by exact_mod_cast hm
  calc |(m : ℚ) * pow2 e| = |(m : ℚ)| * pow2 e := by rw [abs_mul, abs_of_pos he']
    _ < 2 ^ 53 * pow2 e := mul_lt_mul_of_pos_right hm' he'
    _ = pow2 (53 + e) := by rw [pow2_add, pow2_eq_zpow 53]; norm_cast
    _ ≤ pow2 (ulpExp q + 52) := by
        rw [pow2_eq_zpow, pow2_eq_zpow]
        exact zpow_le_zpow_right₀ (by norm_num) (by omega)

/-- Rounding does not cross a binary64 value from below. -/
theorem fl64_le_of_le {q r : Rat} (hr : Rep53 r) (h : q ≤ r) : fl64 q ≤ r := by
  obtain ⟨m, e, hm, he, rfl⟩ := hr
  by_cases hf : ulpExp q ≤ e
  · rw [rep_units hf] at h ⊢
    exact fl64_le_units h
  · obtain ⟨h1, h2⟩ := rep_small hm he (not_le.1 hf)
    have hneg : q < 0 := by
      by_contra hc
      rw [abs_of_nonneg (not_lt.1 hc)] at h2
      have := (abs_lt.1 h1).2
      linarith
    rw [abs_of_neg hneg] at h2
    have h3 : q ≤ ((-2 ^ 52 : Int) : ℚ) * pow2 (ulpExp q) := by
      rw [pow2_add] at h2
      have h52 : pow2 52 = 2 ^ 52 := by rw [pow2_eq_zpow]; norm_num
      rw [h52] at h2
      push_cast
      linarith
    have h4 := fl64_le_units h3
    have h5 : ((-2 ^ 52 : Int) : ℚ) * pow2 (ulpExp q) = -pow2 (ulpExp q + 52) := by
      rw [pow2_add, pow2_eq_zpow 52]
      push_cast
      norm_num
      ring
    rw [h5] at h4
    linarith [(abs_lt.1 h1).1]

/-- Rounding does not cross a binary64 value from above. -/
theorem le_fl64_of_le {q r : Rat} (hr : Rep53 r) (h : r ≤ q) : r ≤ fl64 q := by
  obtain ⟨m, e, hm, he, rfl⟩ := hr
  by_cases hf : ulpExp q ≤ e
  · rw [rep_units hf] at h ⊢
    exact units_le_fl64 h
  · obtain ⟨h1, h2⟩ := rep_small hm he (not_le.1 hf)
    have hpos : 0 < q := by
      by_contra hc
      rw [abs_of_nonpos (not_lt.1 hc)] at h2
      have := (abs_lt.1 h1).1
      linarith
    rw [abs_of_pos hpos] at h2
    have h5 : ((2 ^ 52 : Int) : ℚ) * pow2 (ulpExp q) = pow2 (ulpExp q + 52) := by
      rw [pow2_add, pow2_eq_zpow 52]
      push_cast
      ring
    have h4 := units_le_fl64 (q := q) (j := 2 ^ 52) (by rw [h5]; exact h2)
    rw [h5] at h4
    linarith [(abs_lt.1 h1).2]

/-- A binary64 value is its own rounding. -/
theorem fl64_of_rep {r : Rat} (hr : Rep53 r) : fl64 r = r :=
  le_antisymm (fl64_le_of_le hr le_rfl) (le_fl64_of_le hr le_rfl)

theorem rep53_zero : Rep53 0 := ⟨0, 0, by norm_num, by norm_num, by simp⟩

/-- Rounding keeps a value non-negative. -/
theorem fl64_nonneg {q : Rat} (h : 0 ≤ q) : 0 ≤ fl64 q := le_fl64_of_le rep53_zero h

end Sys2Proof.Machine
end

