-- ==== Sys2Proof/Laws/Gf2.lean ====
section
/-! SUPPORT. The small lemmas of `bitLength` and `DIVREM`. -/

namespace Sys2Proof.Machine

@[simp] theorem bitLength_zero : bitLength 0 = 0 := rfl

/-- The bit length as an order fact: the form in which later proofs use it. -/
theorem bitLength_le_iff (v k : Nat) : bitLength v ≤ k ↔ v < 2 ^ k := by
  unfold bitLength
  split
  · subst v
    simp
  · rw [← Nat.log2_lt (by assumption)]
    omega

theorem lt_bitLength_iff (v k : Nat) : k < bitLength v ↔ 2 ^ k ≤ v := by
  have := bitLength_le_iff v k
  omega

theorem bitLength_mono {a b : Nat} (h : a ≤ b) : bitLength a ≤ bitLength b :=
  (bitLength_le_iff _ _).2 (Nat.lt_of_le_of_lt h ((bitLength_le_iff b _).1 le_rfl))

theorem bitLength_shiftLeft {g : Nat} (h : g ≠ 0) (k : Nat) : bitLength (g <<< k) = bitLength g + k := by
  have hg := (lt_bitLength_iff g (bitLength g - 1)).1
    (Nat.sub_lt (Nat.pos_of_ne_zero (by simp [bitLength, h])) Nat.one_pos)
  have hp : 0 < bitLength g := Nat.pos_of_ne_zero (by simp [bitLength, h])
  apply Nat.le_antisymm
  · rw [bitLength_le_iff, Nat.shiftLeft_eq, Nat.pow_add]
    exact Nat.mul_lt_mul_of_pos_right ((bitLength_le_iff g _).1 le_rfl) (Nat.two_pow_pos k)
  · have : bitLength g - 1 + k < bitLength (g <<< k) := by
      rw [lt_bitLength_iff, Nat.shiftLeft_eq, Nat.pow_add]
      exact Nat.mul_le_mul_right _ hg
    omega

/-- The loop stops at once on a working value shorter than the generator. -/
theorem divremLoop_short {g w : Nat} (h : bitLength w < bitLength g) (fuel : Nat) : divremLoop g fuel w = w := by
  cases fuel with
  | zero => rfl
  | succ n => simp [divremLoop, Nat.not_le.2 h]

/-- The loop takes one iteration on a working value at least as long as the generator. -/
theorem divremLoop_long {g w : Nat} (h : bitLength g ≤ bitLength w) (fuel : Nat) :
    divremLoop g (fuel + 1) w = divremLoop g fuel (divremStep w g) := by
  simp [divremLoop, h]

/-- XOR of two values of one length cancels the leading bit. -/
theorem bitLength_xor_lt {a b : Nat} (ha : a ≠ 0) (h : bitLength a = bitLength b) :
    bitLength (a ^^^ b) < bitLength a := by
  obtain ⟨k, hk⟩ : ∃ k, bitLength a = k + 1 := ⟨Nat.log2 a, by simp [bitLength, ha]⟩
  have la := (bitLength_le_iff a (k + 1)).1 hk.le
  have lb := (bitLength_le_iff b (k + 1)).1 (h ▸ hk.le)
  have ga := (lt_bitLength_iff a k).1 (by omega)
  have gb := (lt_bitLength_iff b k).1 (by omega)
  have top : ∀ x, 2 ^ k ≤ x → x < 2 ^ (k + 1) → x.testBit k = true := by
    intro x h1 h2
    rw [Nat.testBit_eq_decide_div_mod_eq]
    have : x / 2 ^ k = 1 := Nat.div_eq_of_lt_le (by omega) (by rw [Nat.pow_succ] at h2; omega)
    simp [this]
  rw [hk, Nat.lt_succ_iff, bitLength_le_iff]
  apply Nat.lt_pow_two_of_testBit
  intro i hi
  rw [Nat.testBit_xor]
  rcases Nat.eq_or_lt_of_le hi with rfl | hlt
  · simp [top a ga la, top b gb lb]
  · have h2 : 2 ^ (k + 1) ≤ 2 ^ i := Nat.pow_le_pow_right (by omega) hlt
    rw [Nat.testBit_lt_two_pow (by omega), Nat.testBit_lt_two_pow (by omega)]
    rfl

end Sys2Proof.Machine
end

