-- ==== Sys2Proof/Laws/MaskScorer.lean ====
section
/-! SUPPORT. The double sum of the penalty rules, in the form Mathlib's lemmas speak of. -/

namespace Sys2Proof.Machine

theorem sum_map_range (n : Nat) (f : Nat → Nat) : ((List.range n).map f).sum = ∑ i ∈ Finset.range n, f i := by
  induction n with
  | zero => rfl
  | succ n ih => rw [List.range_succ, List.map_append, List.sum_append, ih, Finset.sum_range_succ]; simp

/-- The loop nest as a double sum. -/
theorem gridSum_eq_sum (rows cols : Nat) (f : Nat → Nat → Nat) :
    gridSum rows cols f = ∑ r ∈ Finset.range rows, ∑ c ∈ Finset.range cols, f r c := by
  unfold gridSum
  rw [sum_map_range]
  exact Finset.sum_congr rfl fun r _ => sum_map_range cols (f r)

/-- Only the values inside the grid matter. -/
theorem gridSum_congr {rows cols : Nat} {f g : Nat → Nat → Nat}
    (h : ∀ r c, r < rows → c < cols → f r c = g r c) : gridSum rows cols f = gridSum rows cols g := by
  rw [gridSum_eq_sum, gridSum_eq_sum]
  exact Finset.sum_congr rfl fun r hr => Finset.sum_congr rfl fun c hc =>
    h r c (Finset.mem_range.1 hr) (Finset.mem_range.1 hc)

/-- A bound on every term bounds the sum. -/
theorem gridSum_le {rows cols k : Nat} {f : Nat → Nat → Nat} (h : ∀ r c, r < rows → c < cols → f r c ≤ k) :
    gridSum rows cols f ≤ rows * cols * k := by
  rw [gridSum_eq_sum]
  calc ∑ r ∈ Finset.range rows, ∑ c ∈ Finset.range cols, f r c
      ≤ ∑ _r ∈ Finset.range rows, ∑ _c ∈ Finset.range cols, k :=
        Finset.sum_le_sum fun r hr => Finset.sum_le_sum fun c hc =>
          h r c (Finset.mem_range.1 hr) (Finset.mem_range.1 hc)
    _ = rows * cols * k := by simp [mul_assoc]

theorem moduleCount_le (m : PortMatrix) : moduleCount m ≤ 255 := Nat.le_of_lt_succ m.n.isLt

end Sys2Proof.Machine
end

