-- ==== Sys2Proof/Laws/PerInstr.lean ====
section
/-! SUPPORT. Per-instruction laws: the CTRL word of each command is the row's "match" word of
spec/opcode_table.json, under the row's "mask" (every bit but ABSENT). -/

namespace Sys2Proof.Laws.TableRow

/-- The "match" word of the command's row, copied from spec/opcode_table.json. -/
def rowMatch : Instr → Word
  | .symsize _ => 0x00000001#32
  | .totalcw _ => 0x00000002#32
  | .bitlen _ => 0x00000003#32
  | .fmtenc _ => 0x00000004#32
  | .verenc _ => 0x00000005#32
  | .eval _ => 0x00000006#32

/-- Under the mask `0xFFFFFEFF` the encoding is the row's word, and the one bit outside it is ABSENT. -/
def Statement (i : Instr) : Prop :=
  encode i &&& 0xFFFFFEFF#32 = rowMatch i ∧ (encode i).getLsbD 8 = i.absentBit

theorem symsize (a : Bool) : Statement (.symsize a) := by cases a <;> exact ⟨by decide, by decide⟩
theorem totalcw (a : Bool) : Statement (.totalcw a) := by cases a <;> exact ⟨by decide, by decide⟩
theorem bitlen (a : Bool) : Statement (.bitlen a) := by cases a <;> exact ⟨by decide, by decide⟩
theorem fmtenc (a : Bool) : Statement (.fmtenc a) := by cases a <;> exact ⟨by decide, by decide⟩
theorem verenc (a : Bool) : Statement (.verenc a) := by cases a <;> exact ⟨by decide, by decide⟩
theorem eval (a : Bool) : Statement (.eval a) := by cases a <;> exact ⟨by decide, by decide⟩

end Sys2Proof.Laws.TableRow
end

