-- ==== Sys2Proof/Laws/Step.lean ====
section
/-! SUPPORT. What the HOST's operations and `step` can do, said once. -/

namespace Sys2Proof.Machine

/-- Everything an access `k` to the register `r` can do to the block and the HOST: nothing, log a read, record a
fault and stop the HOST, write ARG, or start a command; the last two are the writes to ARG and CTRL, while BUSY = 0. -/
inductive AccessResult (r : Slot) (k : AccessKind) (s : State) : State → Prop
  | same (v : Word) (hk : k = .write v) : AccessResult r k s s
  | logged (v : Word) (hk : k = .read) (hv : readSlot r s = .ok v) : AccessResult r k s (logRead v s)
  | fault (c : FaultCode) : AccessResult r k s (hostFault c s)
  | arg (v : Word) (hr : r = .arg) (hk : k = .write v) (hb : s.status.busy = false) : AccessResult r k s (writeArg v s)
  | start (w : Word) (hr : r = .ctrl) (hk : k = .write w) (hb : s.status.busy = false) :
      AccessResult r k s (startCommand w s)

theorem writeSlot_cases (r : Slot) (v : Word) (s : State) : AccessResult r (.write v) s (writeSlot r v s) := by
  cases hb : s.status.busy <;> cases r <;>
    simp only [writeSlot, hb, if_true, if_false, Bool.false_eq_true] <;>
    first
      | exact .same v rfl
      | exact .fault _
      | exact .arg _ rfl rfl hb
      | exact .start _ rfl rfl hb

theorem accessSlot_cases (r : Slot) (k : AccessKind) (s : State) : AccessResult r k s (accessSlot r k s) := by
  cases k with
  | read =>
    simp only [accessSlot]
    split
    · exact .logged _ rfl (by assumption)
    · exact .fault _
  | write v => exact writeSlot_cases r v s

/-- The register at each mapped offset, and at no other. -/
theorem slotAt_eq_some {off : Nat} {r : Slot} : slotAt off = some r ↔ off = slotOffset r := by
  constructor
  · intro h
    unfold slotAt at h
    split at h <;> cases h <;> rfl
  · rintro rfl
    cases r <;> rfl

/-- An access to `BASE + slotOffset r` that is a word and the owner's is admitted. -/
theorem admitted_slot (p : Config.Params) (r : Slot) (k : AccessKind) :
    admitted p.base ⟨true, .word, p.base + slotOffset r, k⟩ = true := by
  have h4 : (p.base + slotOffset r) % 4 = 0 := by
    cases r <;> simp only [Config.Params.base, slotOffset] <;> omega
  have hle : slotOffset r ≤ 0x14 := by cases r <;> decide
  simp [admitted, h4, hle]

/-- An admitted access is a word of the owner's to one of the six registers (R34, R35). -/
theorem admitted_cases {p : Config.Params} {a : Access} (h : admitted p.base a = true) :
    ∃ r, a = ⟨true, .word, p.base + slotOffset r, a.kind⟩ := by
  obtain ⟨o, w, ad, k⟩ := a
  obtain ⟨rfl, hal, ⟨hlo, hhi⟩, rfl⟩ : w = .word ∧ ad % 4 = 0 ∧ (p.base ≤ ad ∧ ad ≤ p.base + 0x14) ∧ o = true := by
    simpa [admitted, and_assoc] using h
  have hoff : ∃ r, ad - p.base = slotOffset r := by
    have : ad - p.base = 0x00 ∨ ad - p.base = 0x04 ∨ ad - p.base = 0x08 ∨ ad - p.base = 0x0C
        ∨ ad - p.base = 0x10 ∨ ad - p.base = 0x14 := by
      unfold Config.Params.base at *
      omega
    rcases this with h | h | h | h | h | h
    exacts [⟨.arg, h⟩, ⟨.ctrl, h⟩, ⟨.status, h⟩, ⟨.result, h⟩, ⟨.scoreLo, h⟩, ⟨.scoreHi, h⟩]
  obtain ⟨r, hr⟩ := hoff
  refine ⟨r, ?_⟩
  have : ad = p.base + slotOffset r := by omega
  rw [this]

/-- The bus access to `BASE + slotOffset r` is the access to `r`. -/
theorem hostAccess_slot (s : State) (r : Slot) (k : AccessKind) :
    hostAccess ⟨true, .word, s.params.base + slotOffset r, k⟩ s = accessSlot r k s := by
  have h : slotAt (s.params.base + slotOffset r - s.params.base) = some r :=
    slotAt_eq_some.2 (by omega)
  simp only [hostAccess, h]

/-- Everything the HOST's operation can do when the HOST has a step. -/
inductive HostResult (s : State) : State → Prop
  | access (r : Slot) (k : AccessKind) (rest : List HostMove) (t : State)
      (hs : s.script = .access ⟨true, .word, s.params.base + slotOffset r, k⟩ :: rest)
      (ht : AccessResult r k { s with script := rest } t) : HostResult s t
  | poll (rest : List HostMove) (hs : s.script = .poll :: rest) :
      HostResult s (logRead (statusWord s.status) { s with script := if s.status.done then rest else s.script })
  | present (m : PortMatrix) (rest : List HostMove) (hs : s.script = .present m :: rest) (hb : s.status.busy = false) :
      HostResult s { s with script := rest, matrix := m }

theorem hostMove_cases {s : State} (h : hostEnabled s = true) :
    s.hostStopped = false ∧ HostResult s (hostMove s) := by
  unfold hostEnabled at h
  rw [Bool.and_eq_true] at h
  refine ⟨by simpa using h.1, ?_⟩
  unfold hostMove
  match hs : s.script with
  | [] => simp [hs] at h
  | .access a :: rest =>
    have ha : admitted s.params.base a = true := by simpa [hs, moveEnabled] using h.2
    obtain ⟨r, hr⟩ := admitted_cases ha
    rw [hr] at hs ⊢
    refine .access r a.kind rest _ hs ?_
    simpa only [hostAccess_slot { s with script := rest } r a.kind] using accessSlot_cases r a.kind _
  | .poll :: rest => simpa only [hs] using HostResult.poll rest hs
  | .present m :: rest => exact .present m rest hs (by simpa [hs, moveEnabled] using h.2)

/-- A turn of a HOST that has not stopped, at the access to `r`, is that access. -/
theorem step_host_access {s : State} {r : Slot} {k : AccessKind} {rest : List HostMove} {ts : List Turn}
    (ht : s.turns = .host :: ts) (hh : s.hostStopped = false)
    (hs : s.script = .access ⟨true, .word, s.params.base + slotOffset r, k⟩ :: rest) :
    step s = .next (accessSlot r k { s with turns := ts, script := rest }) := by
  obtain ⟨params, arg, status, result, score, pend, faults, matrix, hostStopped, script, turns, reads⟩ := s
  simp only at ht hh hs
  subst ht hh hs
  refine (if_pos ?_).trans (congrArg Host.Outcome.next (hostAccess_slot ⟨params, arg, status, result, score, pend,
    faults, matrix, false, rest, ts, reads⟩ r k))
  simp [hostEnabled, moveEnabled, admitted_slot]

/-- Everything `perform` can do: an illegal word, or the latched command. -/
theorem perform_cases {s t : State} (h : perform s = .next t) :
    ∃ p, s.pend = some p ∧
      ((∃ why, decode (pendWord p) = .illegal why ∧ t = performIllegal s)
        ∨ ∃ i, decode (pendWord p) = .command i ∧ ExecResult i s t) := by
  unfold perform at h
  split at h
  · rename_i p hp
    refine ⟨p, hp, ?_⟩
    unfold performPend at h
    split at h
    · rename_i why hd
      cases h
      exact .inl ⟨why, hd, rfl⟩
    · rename_i i hd
      exact .inr ⟨i, hd, exec_inv h⟩
  · cases h

/-- The state a step works on: the turn laid down, if any, is taken off. -/
abbrev popTurn (s : State) : State := { s with turns := s.turns.tail }

/-- Everything a step can do: reset, when that is the turn; else nothing, the CORE's `perform`, or the HOST's
operation. -/
inductive StepResult (s : State) : State → Prop
  | reset (hr : s.turns.head? = some .reset) : StepResult s (assertReset (popTurn s))
  | idle (hr : s.turns.head? ≠ some .reset) : StepResult s (popTurn s)
  | core (t : State) (hr : s.turns.head? ≠ some .reset) (hb : s.status.busy = true)
      (ht : perform (popTurn s) = .next t) : StepResult s t
  | host (t : State) (hr : s.turns.head? ≠ some .reset) (hh : s.hostStopped = false)
      (ht : HostResult (popTurn s) t) : StepResult s t

theorem popTurn_nil {s : State} (h : s.turns = []) : popTurn s = s := by
  cases s
  simp_all

theorem step_cases {s t : State} (h : step s = .next t) : StepResult s t := by
  have hpop : ∀ u ts, s.turns = u :: ts → ({ s with turns := ts } : State) = popTurn s := by
    intro u ts hu
    simp [popTurn, hu]
  unfold step at h
  split at h
  · rename_i u us hu
    rw [hpop u us hu] at h
    cases u with
    | core =>
      have hr : s.turns.head? ≠ some .reset := by simp [hu]
      simp only [takeTurn] at h
      split at h
      · exact .core _ hr (by assumption) h
      · cases h
        exact .idle hr
    | host =>
      have hr : s.turns.head? ≠ some .reset := by simp [hu]
      simp only [takeTurn] at h
      split at h
      · cases h
        obtain ⟨h1, h2⟩ := hostMove_cases (by assumption)
        exact .host _ hr h1 h2
      · cases h
        exact .idle hr
    | reset =>
      cases h
      exact .reset (by simp [hu])
  · rename_i hu
    have hr : s.turns.head? ≠ some .reset := by simp [hu]
    have hp := popTurn_nil hu
    unfold unscheduled at h
    split at h
    · exact .core _ hr (by assumption) (by rw [hp]; exact h)
    · split at h
      · cases h
        obtain ⟨h1, h2⟩ := hostMove_cases (by assumption)
        exact .host _ hr h1 (by rw [hp]; exact h2)
      · split at h
        · cases h
        · split at h
          · cases h
            have hi : StepResult s (popTurn s) := .idle hr
            rwa [hp] at hi
          · cases h

end Sys2Proof.Machine
end

