-- ==== Sys2Proof/Tests/Slice0.lean ====
section
/-! SUPPORT. The model's own tests: words and values copied from 95_test_vectors.md, or from a rule's worked example,
never from the model; and, for every statement with hypotheses, a state and operands that meet them together
(`witness_…`). -/

namespace Sys2Proof.Tests

open Sys2Proof.Machine

/-! ### Helpers -/

/-- The next state of an outcome, if it is one. -/
def nextOf (o : Host.Outcome State Fault Refusal) : Option State :=
  match o with
  | .next t => some t
  | .fault _ => none
  | .refused _ => none

/-- The machine after reset, ARG = `arg`, with the CTRL word `w` just written and `turns` to come. -/
def latched (w : Word) (arg : Option Word) (turns : List Turn) : State :=
  { startCommand w { State.reset with arg := arg } with turns := turns }

/-- What one CORE step leaves of a command: RESULT, STATUS as a word, FAULTS. -/
def performed (w : Word) (arg : Option Word) : Option (Option Word × Word × List FaultCode) :=
  (nextOf (step (latched w arg []))).map fun t => (t.result, statusWord t.status, t.faults)

/-- A port of `n × n` modules, from the rows of 95_test_vectors.md (`true` for `1`); a missing module is light. -/
def port (n : Fin 256) (rows : List (List Bool)) : PortMatrix :=
  { n := n, modules := Vector.ofFn fun r => Vector.ofFn fun c => (rows.getD r []).getD c false }

/-- The machine after reset with one HOST operation to do. -/
def hostDoes (s : State) (mv : HostMove) : State := { s with script := [mv], turns := [.host] }

/-! ### Well-formedness: an ill-formed term for each check -/

theorem test_wf_every_command : (Instr.eval true).wf = true ∧ (Instr.symsize false).wf = true := by decide
theorem test_wf_refuses_operand_on_eval : (AsmLine.command .eval (.literal 7)).wf = false := by decide
theorem test_wf_refuses_dash_on_bitlen : (AsmLine.command .bitlen .dash).wf = false := by decide
theorem test_wf_refuses_missing_operand : (AsmLine.command .symsize .nothing).wf = false := by decide
theorem test_wf_refuses_wide_literal : (AsmLine.command .totalcw (.literal (2 ^ 32))).wf = false := by decide
theorem test_wf_refuses_level_four : (AsmLine.fmtinfo 4 0).wf = false := by decide
theorem test_wf_refuses_mask_eight : (AsmLine.fmtinfo 0 8).wf = false := by decide

/-! ### Decoding: words written out from R49 and R50 -/

theorem test_decode_symsize : decode 0b00000000000000000000000_0_00000001#32 = .command (.symsize false) := by decide
theorem test_decode_symsize_absent : decode 0b00000000000000000000000_1_00000001#32 = .command (.symsize true) := by decide
theorem test_decode_totalcw : decode 0b00000000000000000000000_0_00000010#32 = .command (.totalcw false) := by decide
theorem test_decode_bitlen : decode 0b00000000000000000000000_0_00000011#32 = .command (.bitlen false) := by decide
theorem test_decode_fmtenc : decode 0b00000000000000000000000_0_00000100#32 = .command (.fmtenc false) := by decide
theorem test_decode_verenc : decode 0b00000000000000000000000_0_00000101#32 = .command (.verenc false) := by decide
theorem test_decode_eval_absent : decode 0b00000000000000000000000_1_00000110#32 = .command (.eval true) := by decide
theorem test_decode_opc_7 : decode 0x00000007#32 = .illegal .unknownOpcode := by decide
theorem test_decode_rsvd_bit_9 : decode 0x00000201#32 = .illegal .reservedBits := by decide
theorem test_decode_rsvd_bit_31 : decode 0x80000004#32 = .illegal .reservedBits := by decide
theorem test_table_word : decodeTableWord 32 0x105 = some (.verenc true) ∧ decodeTableWord 32 0 = none := by decide

/-! ### Commands: RESULT, STATUS, FAULTS after one `perform` (95_test_vectors.md sections 2 and 3) -/

theorem test_symsize_values :
    performed 0x1#32 (some 7#32) = some (some 45#32, 0x2#32, [])
      ∧ performed 0x1#32 (some 0xFFFFFFFF#32) = some (some 0#32, 0x6#32, []) := by decide
theorem test_symsize_absent_and_unwritten :
    performed 0x101#32 (some 40#32) = some (some 0#32, 0x6#32, [])
      ∧ performed 0x1#32 none = some (none, 0x2#32, [.pfUnwrittenArg]) := by decide
theorem test_totalcw_31 : performed 0x2#32 (some 31#32) = some (some 2323#32, 0x2#32, []) := by decide
theorem test_totalcw_0 : performed 0x2#32 (some 0#32) = some (none, 0x2#32, [.pfVersion]) := by decide
theorem test_bitlen_top : performed 0x3#32 (some 0x80000000#32) = some (some 32#32, 0x2#32, []) := by decide
theorem test_bitlen_absent_unwritten : performed 0x103#32 none = some (none, 0x2#32, [.pfAbsent]) := by decide
theorem test_fmtenc_24 : performed 0x4#32 (some 24#32) = some (some 0x355F#32, 0x2#32, []) := by decide
theorem test_fmtenc_32 : performed 0x4#32 (some 32#32) = some (none, 0x2#32, [.pfFmtData]) := by decide
theorem test_verenc_40 : performed 0x5#32 (some 40#32) = some (some 0x28C69#32, 0x2#32, []) := by decide
theorem test_verenc_6 : performed 0x5#32 (some 6#32) = some (none, 0x2#32, [.pfVerData]) := by decide
theorem test_illegal_7 : performed 0x7#32 (some 1#32) = some (none, 0xA#32, []) := by decide
theorem test_illegal_before_absent : performed 0x307#32 none = some (none, 0xA#32, []) := by decide

/-- E21: EVAL with MC = 0. -/
theorem test_eval_no_modules : performed 0x6#32 none = some (none, 0x2#32, [.pfMatrix]) := by decide

/-- E9 of 95_test_vectors.md through `exec`, ARG unwritten, BAL_DIV = successive. -/
theorem test_eval_ring :
    (nextOf (exec (.eval false) { State.reset with
      matrix := port 3 [[true, true, true], [true, false, true], [true, true, true]] })).map State.score
      = some (some 0x405371C71C71C71E#64) := by decide +kernel

/-! ### MaskScorer (95_test_vectors.md section 3.5) -/

/-- E6: all dark, n = 3: P1 = 6, P2 = 12. -/
theorem test_rules_all_dark :
    (fun m => (rule1 m, rule2 m, rule3 m, darkCount m)) (port 3 (List.replicate 3 (List.replicate 3 true)))
      = (6, 12, 0, 9) := by decide +kernel

/-- E11 and E12: a horizontal and a vertical finder window. -/
theorem test_rule3_horizontal : rule3 (port 7 [[true, false, true, true, true, false, true]]) = 40 := by decide +kernel
theorem test_rule3_vertical :
    rule3 (port 7 ([true, false, true, true, true, false, true].map fun b => [false, false, false, b])) = 40 := by
  decide +kernel

/-- E12's accumulated score from its terms. -/
theorem test_accumulate :
    bits64 (accumulate 100 72 40 (balanceTerm .successive 7 5)) = 0x4072397829CBC14E#64 := by decide +kernel

/-- E17: the n = 21 checkerboard, D = 221, in both settings of BAL_DIV. -/
theorem test_balance_successive : bits64 (balanceTerm .successive 21 221) = 0x3FCD0662AF4F8600#64 := by decide +kernel
theorem test_balance_single : bits64 (balanceTerm .single 21 221) = 0x3FCD0662AF4F8800#64 := by decide +kernel

/-- E18 in the setting `single`. -/
theorem test_score_single :
    bits64 (accumulate 1989 1137 0 (balanceTerm .single 21 33)) = 0x40A916116A3B35FC#64 := by decide +kernel

/-! ### The HOST (95_test_vectors.md section 4) -/

/-- What one HOST operation leaves: ARG, FAULTS, the values read. -/
def hostDid (s : State) (mv : HostMove) : Option (Option Word × List FaultCode × List Word) :=
  (nextOf (step (hostDoes s mv))).map fun t => (t.arg, t.faults, t.reads)

theorem test_read_result_after_reset : hostDid State.reset (rd 0 0x0C) = some (none, [.hfUnwritten], []) := by decide
theorem test_read_status_after_reset : hostDid State.reset (rd 0 0x08) = some (none, [], [0#32]) := by decide
theorem test_read_status_busy : hostDid (latched 0x1#32 none []) (rd 0 0x08) = some (none, [], [1#32]) := by decide
theorem test_write_arg_busy :
    hostDid (latched 0x1#32 (some 3#32) []) (wr 0 0x00 5#32) = some (some 3#32, [.hfBusyWrite], []) := by decide
theorem test_read_result_busy_unwritten :
    hostDid (latched 0x1#32 none []) (rd 0 0x0C) = some (none, [.hfBusyRead], []) := by decide
theorem test_write_arg : hostDid State.reset (wr 0 0x00 5#32) = some (some 5#32, [], []) := by decide
theorem test_score_halves : scoreHi 0x4040AAAABBBBCCCC#64 = 0x4040AAAA#32 ∧ scoreLo 0x4040AAAABBBBCCCC#64 = 0xBBBBCCCC#32 := by
  decide
theorem test_byte_lane : byteLane 0x44332211#32 0 = 0x11#8 ∧ byteLane 0x44332211#32 3 = 0x44#8 := by decide

/-- A 32-bit read at offset 0x06, at offset 0x18, and a 16-bit read: not admitted. -/
theorem test_not_admitted :
    admitted 0 ⟨true, .word, 0x06, .read⟩ = false ∧ admitted 0 ⟨true, .word, 0x18, .read⟩ = false
      ∧ admitted 0 ⟨true, .half, 0x08, .read⟩ = false ∧ admitted 0 ⟨false, .word, 0x08, .read⟩ = false := by decide

/-- Reset while BUSY = 1: PEND discarded, STATUS 0. -/
theorem test_reset_while_busy :
    (nextOf (step (latched 0x6#32 (some 9#32) [.reset]))).map (fun t => (t.pend, statusWord t.status, t.arg))
      = some (none, 0#32, none) := by decide

/-- Program 3 of section 6: the first minimum of its eight scores is index 1. -/
theorem test_select_mask :
    selectMask [0x405D800000000000#64, 0x402638E38E38E388#64, 0x405371C71C71C71C#64, 0x405371C71C71C71E#64,
      0x402C38E38E38E388#64, 0x402638E38E38E388#64, 0x405371C71C71C71C#64, 0x4040AAAAAAAAAAAA#64] = some 1 := by
  decide +kernel

/-- Two instances with different windows make a platform; two at one BASE do not (R96). -/
theorem test_platform_wf :
    (Platform.powerOn [(⟨0, .single⟩, PortMatrix.empty, [], []), (⟨1, .single⟩, PortMatrix.empty, [], [])]).wf = true
      ∧ (Platform.powerOn [(⟨1, .single⟩, PortMatrix.empty, [], []), (⟨1, .single⟩, PortMatrix.empty, [], [])]).wf = false := by
  decide

/-- R84's codes: TOTALCW of 0 records 0x12, and the HOST's read of the unwritten RESULT then adds 0x03. -/
theorem test_fault_codes :
    (nextOf (step (latched 0x2#32 (some 0#32) []))).map faultRecord = some [0x12]
      ∧ (nextOf (step (hostDoes { State.reset with faults := [.pfVersion] } (rd 0 0x0C)))).map faultRecord
        = some [0x12, 0x03] := by decide

/-! ### Witnesses: the hypotheses of each statement are met together -/

theorem witness_StepRunsTheLatchedCommand :
    let s := latched 0x2#32 (some 1#32) [.core]
    let p := latch 0x2#32 (some 1#32)
    (s.status.busy = true ∧ s.pend = some p ∧ decode (pendWord p) = .command (.totalcw false)
      ∧ (Instr.totalcw false).wf = true ∧ s.turns = [.core])
      ∧ ((latched 0x2#32 none []).turns = [] ∧ (latched 0x2#32 none []).status.busy = true)
      ∧ (2 < 2 ^ 32 ∧ decode (BitVec.ofNat 32 2) = .command (.totalcw false)) := by decide

theorem witness_IllegalWordsSetIllopOnly :
    let s := latched 0x201#32 none [.core]
    s.turns = [.core] ∧ s.status.busy = true ∧ s.pend = some (latch 0x201#32 none)
      ∧ decode (pendWord (latch 0x201#32 none)) = .illegal .reservedBits ∧ State.reset.status.busy = false := by decide

theorem witness_Symsize_and_Totalcw :
    operand (latched 0x1#32 (some 1#32) []) = some 1#32 ∧ operand (latched 0x1#32 (some 40#32) []) = some 40#32
      ∧ operand (latched 0x1#32 (some 0#32) []) = some 0#32 ∧ operand (latched 0x1#32 (some 41#32) []) = some 41#32 := by
  decide

theorem witness_Bitlen_Fmtenc_Verenc :
    operand (latched 0x3#32 (some 0xFFFFFFFF#32) []) = some 0xFFFFFFFF#32
      ∧ (operand (latched 0x4#32 (some 31#32) []) = some 31#32 ∧ (31#32).toNat < 32)
      ∧ (operand (latched 0x4#32 (some 32#32) []) = some 32#32 ∧ 32 ≤ (32#32).toNat)
      ∧ (operand (latched 0x5#32 (some 7#32) []) = some 7#32 ∧ operand (latched 0x5#32 (some 40#32) []) = some 40#32)
      ∧ (operand (latched 0x5#32 (some 6#32) []) = some 6#32 ∧ operand (latched 0x5#32 (some 41#32) []) = some 41#32) := by
  decide

theorem witness_EvalWritesTheScore :
    moduleCount (port 255 []) ≠ 0 ∧ moduleCount PortMatrix.empty = 0 ∧ moduleCount (port 1 [[true]]) = 1
      ∧ moduleCount (port 6 []) < 7 := by decide

theorem witness_UniformMatrixScore :
    (∀ r c, r < moduleCount (port 2 []) → c < moduleCount (port 2 []) → darkAt (port 2 []) r c = false)
      ∧ 2 ≤ moduleCount (port 2 []) := by
  have h : ∀ r < 2, ∀ c < 2, darkAt (port 2 []) r c = false := by decide
  exact ⟨fun r c hr hc => h r hr c hc, by decide⟩

theorem witness_UniformMatrixScore_21 :
    (∀ r < 21, ∀ c < 21, darkAt (port 21 []) r c = false) ∧ moduleCount (port 21 []) = 21
      ∧ (∀ r < 1, ∀ c < 1, darkAt (port 1 [[true]]) r c = true) ∧ moduleCount (port 1 [[true]]) = 1 := by decide +kernel

theorem witness_EvalDependsOnlyOnThePort :
    let s := { State.reset with matrix := port 1 [[true]] }
    let u := { latched 0x6#32 (some 5#32) [] with matrix := port 1 [[true]] }
    s ≠ u ∧ s.params.balDiv = u.params.balDiv ∧ moduleCount s.matrix = moduleCount u.matrix
      ∧ moduleCount s.matrix ≠ 0 ∧ darkAt s.matrix 0 0 = darkAt u.matrix 0 0 := by decide

theorem witness_MaskScorer_bounds :
    1 ≤ moduleCount (port 1 []) ∧ 1 ≤ moduleCount (port 255 []) ∧ (1 ≤ 255 ∧ 255 ≤ 255 ∧ 65025 ≤ 255 * 255) := by decide

theorem witness_RoundingIsNearestTiesToEven : ∃ m e : ℤ, |m| < 2 ^ 53 ∧ -1074 ≤ e ∧ (1 : ℚ) = (m : ℚ) * (2 : ℚ) ^ e :=
  ⟨1, 0, by norm_num, by norm_num, by norm_num⟩

theorem witness_Divrem :
    0 < 0x537 ∧ bitLength 0x537 ≤ bitLength 0x2000 ∧ bitLength 0x3D6 < bitLength 0x537
      ∧ 0x2000 % 2 ^ (bitLength 0x537 - 1) = 0 ∧ 0x2000 = clmul 0b1010 0x537 ^^^ 0x3D6 := by decide

theorem witness_SymbolSize_and_table : 1 ≤ 1 ∧ 1 < 40 ∧ 40 ≤ 40 := by decide

theorem witness_Absent_and_Unwritten :
    (Instr.eval true).absentBit = true ∧ (∀ a, Instr.eval true ≠ .symsize a)
      ∧ exec (.symsize true) State.reset = .next (symsizeInvalid State.reset)
      ∧ operand (latched 0x1#32 none []) = none ∧ (Instr.symsize false).absentBit = false
      ∧ Instr.symsize false ≠ .eval false := by
  refine ⟨by decide, by decide, rfl, by decide, by decide, by decide⟩

theorem witness_PreconditionFaultEffect :
    let s := latched 0x2#32 (some 0#32) []
    exec (.totalcw false) s = .next (raiseFault .pfVersion s) ∧ (raiseFault .pfVersion s).faults ≠ s.faults := by
  exact ⟨rfl, by decide⟩

theorem witness_FaultPriority :
    let s := latched 0x103#32 none [.core]
    s.turns = [.core] ∧ s.status.busy = true ∧ s.pend = some (latch 0x103#32 none)
      ∧ decode (pendWord (latch 0x103#32 none)) = .command (.bitlen true) ∧ (Instr.bitlen true).absentBit = true
      ∧ decode (pendWord (latch 0x307#32 none)) = .illegal .reservedBits
      ∧ decode (pendWord (latch 0x001#32 none)) = .command (.symsize false) ∧ (latch 0x001#32 none).arg = none
      ∧ decode (pendWord (latch 0x101#32 none)) = .command (.symsize true)
      ∧ decode (pendWord (latch 0x006#32 none)) = .command (.eval false) := by decide

theorem witness_PerformWriteSets :
    let s := latched 0x7#32 none []
    exec (.symsize true) s = .next (symsizeInvalid s) ∧ s.pend = some (latch 0x7#32 none)
      ∧ decode (pendWord (latch 0x7#32 none)) = .illegal .unknownOpcode ∧ perform s = .next (performIllegal s) :=
  ⟨rfl, rfl, by decide, rfl⟩

/-- For the statements about one HOST operation, idle and busy. -/
theorem witness_HostOperations :
    let s := hostDoes State.reset (wr 0 0x04 1#32)
    let u := hostDoes (latched 0x1#32 none []) (rd 0 0x14)
    (s.turns = [.host] ∧ s.hostStopped = false ∧ s.script = [wr s.params.base 0x04 1#32] ∧ s.status.busy = false)
      ∧ (u.turns = [.host] ∧ u.hostStopped = false ∧ u.script = [rd u.params.base 0x14] ∧ u.status.busy = true)
      ∧ ({ s with arg := some 1#32 } : State).arg = some 1#32 ∧ s.arg = none ∧ s.result = none ∧ s.score = none
      ∧ ({ s with result := some 1#32, score := some 1#64 } : State).result = some 1#32 := by decide

theorem witness_PollRepeatsUntilDone :
    let s := hostDoes State.reset .poll
    (s.turns = [.host] ∧ s.hostStopped = false ∧ s.script = [.poll] ∧ s.status.done = false)
      ∧ (complete s).status.done = true ∧ (complete s).script = [.poll] := by decide

theorem witness_StoppedHostTakesNoStep :
    let s := hostFault .hfBusyWrite (latched 0x7#32 none [])
    s.hostStopped = true ∧ s.status.busy = true ∧ s.turns = [] ∧ step s = .next (performIllegal s) :=
  ⟨rfl, rfl, rfl, rfl⟩

theorem witness_NonAdmittedAccessIsStuck :
    let a : Access := ⟨true, .word, 0x18, .read⟩
    let s : State := { State.reset with script := [.access a] }
    s.script = [.access a] ∧ admitted s.params.base a = false ∧ s.hostStopped = false ∧ s.turns = []
      ∧ s.status.busy = false ∧ (hostDoes s (.access a)).turns = [.host]
      ∧ ({ latched 0x1#32 none [] with script := [.access a] } : State).status.busy = true
      ∧ admitted 0 ⟨true, .word, 0x14, .read⟩ = true ∧ admitted 0 ⟨true, .word, 0x00, .read⟩ = true := by decide

theorem witness_ScoreReadsAreHalvesOfOneScore :
    let s : State := { State.reset with score := some 0x4040AAAABBBBCCCC#64 }
    readSlot .scoreLo s = .ok 0xBBBBCCCC#32 ∧ readSlot .scoreHi s = .ok 0x4040AAAA#32 := by decide

theorem witness_AssemblerExpansions :
    Mnemonic.verenc ≠ .eval ∧ 40 < 2 ^ 32 ∧ (3 < 4 ∧ 7 < 8) ∧ (AsmLine.command .eval .dash).wf = false := by decide

theorem witness_MaskSelection : ([0#64] : List Bits64) ≠ [] ∧ ([5#64, 3#64] : List Bits64)[1]? = some 3#64 := by decide

theorem witness_ResetEvent :
    (latched 0x6#32 none [.reset]).turns = [.reset] ∧ (latched 0x6#32 none [.reset]).status.busy = true := by decide

/-- For the statements about every step: a step that performs, one that resets, one that is the HOST's. -/
theorem witness_Steps :
    let s := latched 0x101#32 none []
    let u := hostDoes State.reset (.present (port 1 [[true]]))
    MachineInv s ∧ ScoreLegal s.score ∧ step s = .next (symsizeInvalid s) ∧ s.turns.head? ≠ some .reset
      ∧ (symsizeInvalid s).result ≠ s.result
      ∧ step u = .next (hostMove { u with turns := [] }) ∧ (hostMove { u with turns := [] }).matrix ≠ u.matrix := by
  refine ⟨⟨⟨by decide, by decide⟩, by decide, (by intro v h; cases h)⟩, (by intro v h; cases h), rfl, by decide, by decide, rfl, by decide⟩

theorem witness_StepWritesScoreAndArg :
    let s : State := { latched 0x6#32 none [] with matrix := port 1 [[true]] }
    let u := hostDoes State.reset (wr 0 0x00 5#32)
    step s = .next (complete (writeScore (scoreBits .successive (port 1 [[true]])) s))
      ∧ (complete (writeScore (scoreBits .successive (port 1 [[true]])) s)).score ≠ s.score
      ∧ (nextOf (step u)).map State.arg ≠ some u.arg := by
  refine ⟨rfl, by simp [latched, State.reset, State.powerOn], by decide⟩

theorem witness_ErrorFlagsStayUntilTheNextStart :
    let s : State := hostDoes { State.reset with status := ⟨false, true, true, false⟩ } (wr 0 0x04 1#32)
    MachineInv s ∧ s.status.invarg = true ∧ (nextOf (step s)).map (fun t => t.status.invarg) = some false := by
  refine ⟨⟨⟨by decide, by decide⟩, by decide, by intro v h; cases h⟩, by decide, by decide⟩

theorem witness_FaultsOnlyGrow : (raiseFault .pfMatrix State.reset).faults ≠ [] := by decide

theorem witness_LatchedCommandIsPerformed :
    let s := latched 0x1#32 none [.host, .core]
    MachineInv s ∧ s.status.busy = true ∧ Turn.reset ∉ s.turns := by
  refine ⟨⟨⟨by decide, by decide⟩, by decide, by intro v h; cases h⟩, by decide, by decide⟩

theorem witness_EndedMachineStaysIdle :
    State.reset.script = [] ∧ State.reset.status.busy = false ∧ State.reset.hostStopped = false
      ∧ State.reset.turns = [] := by decide

theorem witness_InstancesAreIndependent :
    let p : Platform := ⟨[latched 0x101#32 none [], State.reset]⟩
    p.stepAt 0 = .next ⟨[symsizeInvalid (latched 0x101#32 none []), State.reset]⟩ ∧ (1 : Nat) ≠ 0
      ∧ p.instances[0]? = some (latched 0x101#32 none []) := ⟨rfl, by decide, by decide⟩

theorem witness_AccessesWhileBusy :
    (latched 0x1#32 (some 5#32) []).status.busy = true ∧ (latched 0x1#32 (some 5#32) []).arg = some 5#32 := by decide

theorem witness_StoppedHostTakesNoStep_access :
    let s := latched 0x7#32 none []
    (accessSlot .arg (.write 1#32) s).faults ≠ s.faults ∧ (accessSlot .scoreHi .read State.reset).faults ≠ [] := by decide

/-- FaultPriority's last tests: each command's own condition, at the edge of its range. -/
theorem witness_FaultPriority_own_tests :
    (latch 0x1#32 (some 41#32)).arg = some 41#32 ∧ decode (pendWord (latch 0x1#32 (some 41#32))) = .command (.symsize false)
      ∧ decode (pendWord (latch 0x2#32 (some 0#32))) = .command (.totalcw false) ∧ (0#32 : Word).toNat < 1
      ∧ decode (pendWord (latch 0x4#32 (some 32#32))) = .command (.fmtenc false) ∧ 32 ≤ (32#32 : Word).toNat
      ∧ decode (pendWord (latch 0x5#32 (some 6#32))) = .command (.verenc false) ∧ (6#32 : Word).toNat < 7
      ∧ moduleCount State.reset.matrix = 0 := by decide

theorem witness_ErrorFlags_illop :
    let s : State := { State.reset with status := ⟨false, true, false, true⟩, turns := [.reset] }
    MachineInv s ∧ s.status.illop = true ∧ (nextOf (step s)).map (fun t => t.status.illop) = some false := by
  refine ⟨⟨⟨by decide, by decide⟩, by decide, by intro v h; cases h⟩, by decide, by decide⟩

/-- RegisterReads' ignored writes at both values of BUSY (95_test_vectors.md section 4), MatrixChangesOnlyWhenIdle's
present at both. -/
theorem witness_IgnoredWrites_and_Present :
    let v := 0xFFFFFFFF#32
    let s := hostDoes State.reset (wr 0 0x08 v)
    let u := hostDoes (latched 0x1#32 none []) (wr 0 0x14 v)
    let m := port 1 [[true]]
    (s.turns = [.host] ∧ s.hostStopped = false ∧ s.script = [wr s.params.base 0x08 v] ∧ s.status.busy = false
        ∧ (nextOf (step s)).map State.status = some s.status)
      ∧ (u.turns = [.host] ∧ u.hostStopped = false ∧ u.script = [wr u.params.base 0x14 v] ∧ u.status.busy = true)
      ∧ ((hostDoes State.reset (.present m)).script = [.present m] ∧ (hostDoes State.reset (.present m)).status.busy = false)
      ∧ (hostDoes (latched 0x6#32 none []) (.present m)).status.busy = true := by decide

/-- ScoreReadsAreHalvesOfOneScore over steps: the HOST reads SCORE_LO, polls once, then reads SCORE_HI. -/
theorem witness_ScoreReads_over_steps :
    let s : State := { State.reset with
      score := some 0x4040AAAABBBBCCCC#64, status := ⟨false, true, false, false⟩,
      script := [rd 0 0x10, .poll, rd 0 0x14], turns := [.host, .host, .host] }
    let p := fun i : Nat => (nextOf (core.run i s)).getD s
    (∀ i ≤ 2, step (p i) = .next (p (i + 1)))
      ∧ ((p 0).script = rd (p 0).params.base 0x10 :: (p 1).script ∧ (p 1).reads = (p 0).reads ++ [0xBBBBCCCC#32])
      ∧ ((p 2).script = rd (p 2).params.base 0x14 :: (p 3).script ∧ (p 3).reads = (p 2).reads ++ [0x4040AAAA#32])
      ∧ ∀ i < 2, (p i).turns.head? ≠ some .reset ∧ ∀ w, (p i).script ≠ wr (p i).params.base 0x04 w :: (p (i + 1)).script := by
  intro s p
  refine ⟨fun i hi => ?_, ⟨rfl, rfl⟩, ⟨rfl, rfl⟩, fun i hi => ?_⟩
  · interval_cases i <;> rfl
  · interval_cases i <;> exact ⟨by decide, fun w h => by injection h with h _; cases h⟩

/-- ArgWriters' second case: a step of the HOST that changes ARG. -/
theorem witness_ArgWriters_write :
    let s := hostDoes State.reset (wr 0 0x00 5#32)
    s.turns.head? ≠ some .reset ∧ (nextOf (step s)).map State.arg = some (some 5#32) ∧ s.arg = none := by decide

theorem witness_EncodingRoundTrip :
    (Instr.verenc true).wf = true ∧ decode 0x105#32 = .command (.verenc true) := by decide

end Sys2Proof.Tests
end

