-- ==== Sys2Proof/Proofs/FaultRecord.lean ====
section
/-! SUPPORT. FAULTS only grows (R28): one lemma for each operation a step is made of, then the step. -/

namespace Sys2Proof.Machine

/-- FAULTS of `t` is that of `s`, or has one code more at its end (R28). -/
abbrev FaultsKeptOrAppended (s t : State) : Prop := t.faults = s.faults ∨ ∃ c, t.faults = s.faults ++ [c]

theorem AccessResult.faultsKeptOrAppended {r : Slot} {k : AccessKind} {s t : State} (h : AccessResult r k s t) :
    FaultsKeptOrAppended s t := by
  cases h with
  | same _ _ => exact .inl rfl
  | logged v _ _ => exact .inl (logRead_faults s v)
  | fault c => exact .inr ⟨c, hostFault_faults s c⟩
  | arg v _ _ _ => exact .inl (writeArg_faults s v)
  | start w _ _ _ => exact .inl (startCommand_faults s w)

theorem HostResult.faultsKeptOrAppended {s t : State} (h : HostResult s t) : FaultsKeptOrAppended s t := by
  cases h with
  | access r k rest t _ ht => exact ht.faultsKeptOrAppended
  | poll _ _ => exact .inl (logRead_faults _ _)
  | present _ _ _ _ => exact .inl rfl

theorem ExecResult.faultsKeptOrAppended {i : Instr} {s t : State} (h : ExecResult i s t) :
    FaultsKeptOrAppended s t := by
  cases h with
  | fault c => exact .inr ⟨c, raiseFault_faults s c⟩
  | size _ _ _ _ _ => exact .inl (by simp)
  | result _ _ _ _ _ _ => exact .inl (by simp)
  | score _ _ => exact .inl (by simp)

theorem perform_faultsKeptOrAppended {s t : State} (h : perform s = .next t) : FaultsKeptOrAppended s t := by
  obtain ⟨p, _, ⟨_, _, rfl⟩ | ⟨i, _, hexec⟩⟩ := perform_cases h
  · exact .inl (performIllegal_faults s)
  · exact hexec.faultsKeptOrAppended

theorem step_faultsKeptOrAppended {s t : State} (h : step s = .next t) : FaultsKeptOrAppended s t := by
  cases step_cases h with
  | reset _ => exact .inl (assertReset_faults (popTurn s))
  | idle _ => exact .inl rfl
  | core _ _ _ ht => exact perform_faultsKeptOrAppended (s := popTurn s) ht
  | host _ _ _ ht => exact ht.faultsKeptOrAppended

theorem goodEnd_eq_false_of_faults {s : State} (h : s.faults ≠ []) : goodEnd s = false := by
  simp [goodEnd, h]

/-- Settles O50, by cases on what a step can do; only the fault cases of an access and of a command touch FAULTS. -/
theorem faultsOnlyGrow : Obligations.FaultsOnlyGrow := by
  unfold Obligations.FaultsOnlyGrow
  refine ⟨fun _ _ => step_faultsKeptOrAppended, rfl, fun c s => ?_, rfl, fun _ _ => faultOfNumber_eq_some,
    fun _ => goodEnd_eq_false_of_faults⟩
  exact ⟨raiseFault_faults s c, hostFault_faults s c, faultRecord_raiseFault c s, faultRecord_hostFault c s⟩

end Sys2Proof.Machine
end

