-- ==== Sys2Proof/Proofs/ArgRegister.lean ====
section
/-! SUPPORT. ARG (R20): what a HOST access does to it, and that `perform` leaves it. -/

namespace Sys2Proof.Machine

section access
variable {s : State}

theorem accessSlot_arg_write_idle (v : Word) (hb : s.status.busy = false) :
    accessSlot .arg (.write v) s = writeArg v s := by
  simp [accessSlot, writeSlot, hb]

theorem accessSlot_arg_write_busy (v : Word) (hb : s.status.busy = true) :
    accessSlot .arg (.write v) s = hostFault .hfBusyWrite s := by
  simp [accessSlot, writeSlot, hb]

theorem accessSlot_arg_read_written {v : Word} (ha : s.arg = some v) : accessSlot .arg .read s = logRead v s := by
  simp [accessSlot, readSlot, ha]

theorem accessSlot_arg_read_unwritten (ha : s.arg = none) :
    accessSlot .arg .read s = hostFault .hfUnwritten s := by
  simp [accessSlot, readSlot, ha]

end access

theorem ExecResult.arg_eq {i : Instr} {s t : State} (h : ExecResult i s t) : t.arg = s.arg := by
  cases h with
  | fault c => exact raiseFault_arg s c
  | size _ _ _ _ _ => simp
  | result _ _ _ _ _ _ => simp
  | score _ _ => simp

theorem perform_arg_eq {s t : State} (h : perform s = .next t) : t.arg = s.arg := by
  obtain ⟨p, _, ⟨_, _, rfl⟩ | ⟨i, _, hexec⟩⟩ := perform_cases h
  · exact performIllegal_arg s
  · exact hexec.arg_eq

/-- Settles O38: a HOST turn at BASE + 0 is an access to ARG, and the access lemmas give its next state; no result of a
command writes ARG. -/
theorem argWriteAndRead : Obligations.ArgWriteAndRead := by
  unfold Obligations.ArgWriteAndRead
  refine ⟨fun s rest ts ht hh => ⟨fun v hs => ?_, fun hs => ?_⟩, fun _ _ => perform_arg_eq, rfl, assertReset_arg⟩
  · have hstep := step_host_access (r := .arg) ht hh hs
    exact ⟨fun hb => hstep.trans (congrArg _ (accessSlot_arg_write_idle v hb)),
      fun hb => hstep.trans (congrArg _ (accessSlot_arg_write_busy v hb))⟩
  · have hstep := step_host_access (r := .arg) ht hh hs
    exact ⟨fun v ha => hstep.trans (congrArg _ (accessSlot_arg_read_written ha)),
      fun ha => hstep.trans (congrArg _ (accessSlot_arg_read_unwritten ha))⟩

end Sys2Proof.Machine
end

