-- ==== Sys2Proof/Proofs/PowerOn.lean ====
section
/-! SUPPORT. The values R32 gives the state after the power-on reset, field by field. -/

namespace Sys2Proof.Machine

@[simp] theorem statusWord_reset : statusWord Status.reset = 0x00000000#32 := by decide

@[simp] theorem readSlot_ctrl (s : State) : readSlot .ctrl s = .ok 0#32 := rfl

section powerOn
variable (p : Config.Params) (m : PortMatrix) (script : List HostMove) (turns : List Turn)

@[simp] theorem powerOn_arg : (State.powerOn p m script turns).arg = none := rfl
@[simp] theorem powerOn_status : (State.powerOn p m script turns).status = Status.reset := rfl
@[simp] theorem powerOn_result : (State.powerOn p m script turns).result = none := rfl
@[simp] theorem powerOn_score : (State.powerOn p m script turns).score = none := rfl
@[simp] theorem powerOn_pend : (State.powerOn p m script turns).pend = none := rfl
@[simp] theorem powerOn_faults : (State.powerOn p m script turns).faults = [] := rfl
@[simp] theorem powerOn_matrix : (State.powerOn p m script turns).matrix = m := rfl

end powerOn

/-- Settles O48: R32's table row by row, from the fields of `State.powerOn` and of `assertReset`. -/
theorem powerOnState : Obligations.PowerOnState := by
  unfold Obligations.PowerOnState
  refine ⟨fun p m script turns => ?_, ⟨Config.Params.default, PortMatrix.empty, rfl⟩,
    fun s => ⟨assertReset_faults s, assertReset_matrix s⟩, ?_⟩
  · simp
  · decide

end Sys2Proof.Machine
end

