-- ==== Sys2Proof/Proofs/CtrlWords.lean ====
section
/-! SUPPORT. CTRL words: which are illegal (R52, R53), the CTRL write that latches one (R55), and the CORE's turn on an
illegal word. -/

namespace Sys2Proof

theorem decode_of_rsvd_ne {w : Word} (hr : rsvdField w ≠ 0#23) : decode w = .illegal .reservedBits := if_pos hr

theorem decode_of_opc_unlisted {w : Word} (hr : rsvdField w = 0#23)
    (ho : (opcField w).toNat < 1 ∨ 6 < (opcField w).toNat) : decode w = .illegal .unknownOpcode := by
  unfold decode
  rw [if_neg (not_not.2 hr)]
  split
  case h_7 => rfl
  all_goals omega

theorem decode_of_opc_listed {w : Word} (hr : rsvdField w = 0#23) (hlo : 1 ≤ (opcField w).toNat)
    (hhi : (opcField w).toNat ≤ 6) : ∃ i, decode w = .command i := by
  unfold decode
  rw [if_neg (not_not.2 hr)]
  generalize (opcField w).toNat = opc at hlo hhi ⊢
  interval_cases opc <;> exact ⟨_, rfl⟩

/-- The illegal words of R53, by their fields. -/
theorem decode_illegal_iff (w : Word) :
    (∃ why, decode w = .illegal why)
      ↔ rsvdField w ≠ 0#23 ∨ (opcField w).toNat < 1 ∨ 6 < (opcField w).toNat := by
  constructor
  · rintro ⟨why, hw⟩
    by_contra hfields
    obtain ⟨hr, hlo, hhi⟩ : rsvdField w = 0#23 ∧ 1 ≤ (opcField w).toNat ∧ (opcField w).toNat ≤ 6 := by
      simpa only [not_or, not_lt, not_not] using hfields
    obtain ⟨i, hi⟩ := decode_of_opc_listed hr hlo hhi
    cases hw.symm.trans hi
  · intro hfields
    by_cases hr : rsvdField w = 0#23
    · exact ⟨_, decode_of_opc_unlisted hr (hfields.resolve_left (not_not.2 hr))⟩
    · exact ⟨_, decode_of_rsvd_ne hr⟩

namespace Machine

section
variable {s : State}

theorem writeSlot_ctrl_idle (w : Word) (hb : s.status.busy = false) : writeSlot .ctrl w s = startCommand w s := by
  simp [writeSlot, hb]

theorem writeSlot_ctrl_busy (w : Word) (hb : s.status.busy = true) :
    writeSlot .ctrl w s = hostFault .hfBusyWrite s := by
  simp [writeSlot, hb]

/-- A turn of the CORE with BUSY = 1 is `perform`. -/
theorem step_core_busy {ts : List Turn} (ht : s.turns = .core :: ts) (hb : s.status.busy = true) :
    step s = perform { s with turns := ts } := by
  simp [step, ht, takeTurn, hb]

theorem perform_of_pend {p : Pend} (hp : s.pend = some p) : perform s = performPend p s := by
  simp [perform, hp]

theorem performPend_of_illegal {p : Pend} {why : Illegal} (hd : decode (pendWord p) = .illegal why) :
    performPend p s = .next (performIllegal s) := by
  simp [performPend, hd]

end

/-- Settles O3, from the fields of the illegal words, the CTRL write with BUSY = 0, and the CORE's turn as `perform`
of an illegal word. -/
theorem illegalWordsSetIllopOnly : Obligations.IllegalWordsSetIllopOnly := by
  unfold Obligations.IllegalWordsSetIllopOnly
  refine ⟨decode_illegal_iff, fun w s hb => ?_, fun s p why ts ht hb hp hd => ?_⟩
  · simp [writeSlot_ctrl_idle w hb]
  · calc step s = perform { s with turns := ts } := step_core_busy ht hb
      _ = performPend p { s with turns := ts } := perform_of_pend hp
      _ = .next (performIllegal { s with turns := ts }) := performPend_of_illegal hd

/-- Settles O37: a HOST turn at BASE + 4 is the write to CTRL, which starts the command or faults by BUSY alone. -/
theorem ctrlWriteStartsTheCommand : Obligations.CtrlWriteStartsTheCommand := by
  unfold Obligations.CtrlWriteStartsTheCommand
  intro s w rest ts ht hh hs
  have hstep : step s = .next (writeSlot .ctrl w { s with turns := ts, script := rest }) :=
    step_host_access (r := .ctrl) (k := .write w) ht hh hs
  exact ⟨fun hb => hstep.trans (congrArg Host.Outcome.next (writeSlot_ctrl_idle w hb)),
    fun hb => hstep.trans (congrArg Host.Outcome.next (writeSlot_ctrl_busy w hb))⟩

end Machine

end Sys2Proof
end

