-- ==== Sys2Proof/Proofs/AbsentBit.lean ====
section
/-! SUPPORT. ABSENT = 1 (R54): a meaning with SYMSIZE, a fault with every other command. -/

namespace Sys2Proof.Machine

theorem runOnArg_absent (f : Nat → Except FaultCode Nat) (s : State) :
    runOnArg true f s = raiseFault .pfAbsent s := if_pos rfl

/-- ABSENT = 1 is the first test of every command but SYMSIZE (R56, R87). -/
theorem exec_of_absentBit {i : Instr} (ha : i.absentBit = true) (hi : ∀ a, i ≠ .symsize a) (s : State) :
    exec i s = .next (raiseFault .pfAbsent s) := by
  cases i with
  | symsize a => exact absurd rfl (hi a)
  | totalcw a | bitlen a | fmtenc a | verenc a =>
    obtain rfl : a = true := ha
    exact congrArg Host.Outcome.next (runOnArg_absent _ s)
  | eval a =>
    obtain rfl : a = true := ha
    exact congrArg Host.Outcome.next (if_pos rfl)

theorem exec_symsize_absent (s : State) : exec (.symsize true) s = .next (symsizeInvalid s) := rfl

section
variable (s : State)

@[simp] theorem symsizeInvalid_faults : (symsizeInvalid s).faults = s.faults := rfl
@[simp] theorem symsizeInvalid_status :
    (symsizeInvalid s).status = statusCompleted (statusInvarg true s.status) := rfl
@[simp] theorem symsizeInvalid_result : (symsizeInvalid s).result = some 0#32 := rfl

end

/-- Settles O32: PF_ABSENT is the first test of the other five commands; SYMSIZE answers R61's invalid outcome. -/
theorem absentOnOtherCommandsFaults : Obligations.AbsentOnOtherCommandsFaults := by
  unfold Obligations.AbsentOnOtherCommandsFaults
  refine ⟨fun s i ha hi => exec_of_absentBit ha hi s, fun s t h => ?_⟩
  obtain rfl : symsizeInvalid s = t := by simpa [exec_symsize_absent] using h
  simp

end Sys2Proof.Machine
end

