-- ==== Sys2Proof/Proofs/Assembler.lean ====
section
/-! SUPPORT. The expansion of each form of a well-formed assembler line (R59). -/

namespace Sys2Proof.Machine

/-- Every mnemonic but EVAL takes a literal that fits ARG (R58). -/
theorem operandFits_literal {m : Mnemonic} (hm : m ≠ .eval) (v : Nat) :
    operandFits m (.literal v) = decide (v < 2 ^ 32) := by
  cases m with
  | eval => exact absurd rfl hm
  | symsize | totalcw | bitlen | fmtenc | verenc => rfl

theorem expand_literal (base : Nat) {m : Mnemonic} {v : Nat} (hm : m ≠ .eval) (hv : v < 2 ^ 32) :
    expand base (.command m (.literal v)) = commandMoves base m v :=
  if_pos ((operandFits_literal hm v).trans (decide_eq_true hv))

theorem expand_fmtinfo (base : Nat) {ecl mask : Nat} (he : ecl < 4) (hm : mask < 8) :
    expand base (.fmtinfo ecl mask) = commandMoves base .fmtenc (fmtinfoData ecl mask) :=
  if_pos (by simp [AsmLine.wf, he, hm])

/-- A 2-bit level and a 3-bit mask index make FMTENC's 5-bit operand. -/
theorem fmtinfoData_lt {ecl mask : Nat} (he : ecl < 4) (hm : mask < 8) : fmtinfoData ecl mask < 2 ^ 5 := by
  have hshift : ecl <<< 3 < 2 ^ 5 := by
    rw [Nat.shiftLeft_eq]
    omega
  exact Nat.or_lt_two_pow hshift (by omega)

theorem encode_symsize_absent : encode (.symsize true) = 0x00000101#32 := by decide

theorem encode_eval : encode (.eval false) = 0x00000006#32 := by decide

theorem expand_symsize_dash (base : Nat) :
    expand base (.command .symsize .dash) = [wr base 0x04 (encode (.symsize true)), .poll] := rfl

theorem expand_eval_nothing (base : Nat) :
    expand base (.command .eval .nothing) = [wr base 0x04 (encode (.eval false)), .poll] := rfl

/-- Settles O46, one expansion per form of line; FMTINFO's data is an operand FMTENC takes, so both expand alike. -/
theorem assemblerExpansions : Obligations.AssemblerExpansions := by
  unfold Obligations.AssemblerExpansions
  refine fun base => ⟨fun m v hm hv => expand_literal base hm hv, ?_, ?_, fun ecl mask he hm => ?_⟩
  · rw [expand_symsize_dash, encode_symsize_absent]
  · rw [expand_eval_nothing, encode_eval]
  · have hdata : fmtinfoData ecl mask < 2 ^ 32 := (fmtinfoData_lt he hm).trans (by decide)
    exact (expand_fmtinfo base he hm).trans (expand_literal base (by decide) hdata).symm

end Sys2Proof.Machine
end

