-- ==== Sys2Proof/Proofs/SymbolDimension.lean ====
section
/-! SUPPORT. The SymbolDimension unit: the next state of SYMSIZE (R61) and of TOTALCW (R63) in each of their cases, and
CW_TABLE (R60). -/

namespace Sys2Proof.Machine

theorem versionOk_of_mem {v : Nat} (hlo : 1 ≤ v) (hhi : v ≤ 40) : versionOk v = true :=
  decide_eq_true ⟨hlo, hhi⟩

theorem versionOk_of_not_mem {v : Nat} (hv : v < 1 ∨ 40 < v) : versionOk v = false :=
  decide_eq_false (by omega)

section symsize
variable {s : State} {v : Word}

theorem exec_symsize_of_versionOk (ho : operand s = some v) (hv : versionOk v.toNat = true) :
    exec (.symsize false) s
      = .next (complete (writeInvarg false (writeResult (zext32 (symbolSize v.toNat)) s))) := by
  simp [exec, execSymsize, ho, hv]

theorem exec_symsize_of_not_versionOk (ho : operand s = some v) (hv : versionOk v.toNat = false) :
    exec (.symsize false) s = .next (symsizeInvalid s) := by
  simp [exec, execSymsize, ho, hv]

theorem exec_symsize_unwritten (ho : operand s = none) :
    exec (.symsize false) s = .next (raiseFault .pfUnwrittenArg s) := by
  simp [exec, execSymsize, ho]

end symsize

theorem totalcwRule_of_versionOk {v : Nat} (hv : versionOk v = true) : totalcwRule v = .ok (cwEntry v) := if_pos hv

theorem totalcwRule_of_not_versionOk {v : Nat} (hv : versionOk v = false) : totalcwRule v = .error .pfVersion :=
  if_neg (Bool.eq_false_iff.1 hv)

/-- Within the table, `cwEntry` reads the table's own word. -/
theorem cwTable_getElem? {v : Nat} (hv : v < cwTable.length) :
    cwTable[v]? = some (BitVec.ofNat 16 (cwEntry v)) := by
  simp [cwEntry, hv]

/-- The entries of the admitted versions fit 12 bits (R63). -/
theorem cwEntry_lt : ∀ v ∈ Finset.Icc 1 40, cwEntry v < 2 ^ 12 := by decide

/-- The check of R60, version by version. -/
theorem cwEntry_eq_rawModules_div : ∀ v ∈ Finset.Icc 1 40, (cwEntry v : Int) = rawModules v / 8 := by decide

/-- Settles O5: the four cases of SYMSIZE, each next state spelled out by the fields its operations write. -/
theorem symsizeGivesTheSizeOrInvarg : Obligations.SymsizeGivesTheSizeOrInvarg := by
  unfold Obligations.SymsizeGivesTheSizeOrInvarg
  refine ⟨fun s v ho hlo hhi => ?_, fun s v ho hv => ?_, exec_symsize_absent, fun s ho => ?_⟩
  · exact exec_symsize_of_versionOk ho (versionOk_of_mem hlo hhi)
  · exact exec_symsize_of_not_versionOk ho (versionOk_of_not_mem hv)
  · exact exec_symsize_unwritten ho

/-- Settles O7: TOTALCW's rule admits exactly 1..40, and `runOnArg` writes its result or raises its fault; the entries'
bounds are those of the table. -/
theorem totalcwReadsTheTable : Obligations.TotalcwReadsTheTable := by
  unfold Obligations.TotalcwReadsTheTable
  refine ⟨fun s v ho hlo hhi => ?_, fun s v ho hv => ?_, fun v hlo hhi => ?_, rfl, rfl, rfl⟩
  · have hrule := totalcwRule_of_versionOk (versionOk_of_mem hlo hhi)
    exact congrArg Host.Outcome.next (runOnArg_ok ho hrule)
  · have hrule := totalcwRule_of_not_versionOk (versionOk_of_not_mem hv)
    exact congrArg Host.Outcome.next (runOnArg_error ho hrule)
  · exact cwEntry_lt v (Finset.mem_Icc.2 ⟨hlo, hhi⟩)

/-- Settles O8: the length and the values are read off the table; the formula is checked on each of the 40 versions. -/
theorem codewordTableEntries : Obligations.CodewordTableEntries := by
  unfold Obligations.CodewordTableEntries
  have hlen : cwTable.length = 41 := rfl
  refine ⟨hlen, rfl, fun v hv => cwTable_getElem? (by omega), fun v hlo hhi => ?_⟩
  exact cwEntry_eq_rawModules_div v (Finset.mem_Icc.2 ⟨hlo, hhi⟩)

end Sys2Proof.Machine
end

