-- ==== Sys2Proof/Proofs/BchEncoder.lean ====
section
/-! SUPPORT. The BCHEncoder unit: `bitLength` as the top bit's position (R64), `DIVREM` as its loop (R65), the codewords
it makes, and the next states of BITLEN (R68), FMTENC (R69) and VERENC (R70). -/

namespace Sys2Proof.Machine

/-- Settles O10: the two sides are the two order facts of `bitLength`, with `bitLength v` positive for `v > 0`. -/
theorem bitLengthIsTheTopBitPosition : Obligations.BitLengthIsTheTopBitPosition := by
  unfold Obligations.BitLengthIsTheTopBitPosition
  refine ⟨bitLength_zero, fun v k hv => ?_⟩
  have hpos : 0 < bitLength v := (lt_bitLength_iff v 0).2 hv
  rw [← lt_bitLength_iff, ← bitLength_le_iff]
  omega

section xor
variable {a b : Nat}

theorem bitLength_xor_le {k : Nat} (ha : bitLength a ≤ k) (hb : bitLength b ≤ k) : bitLength (a ^^^ b) ≤ k := by
  rw [bitLength_le_iff] at ha hb ⊢
  exact Nat.xor_lt_two_pow ha hb

/-- XOR with a shorter value keeps the top bit: were the result shorter too, the second XOR could not give `a` back. -/
theorem bitLength_xor_of_lt (h : bitLength b < bitLength a) : bitLength (a ^^^ b) = bitLength a := by
  have hle : bitLength (a ^^^ b) ≤ bitLength a := bitLength_xor_le le_rfl h.le
  have hback : bitLength a ≤ max (bitLength (a ^^^ b)) (bitLength b) := by
    conv_lhs => rw [← Nat.xor_xor_cancel_right a b]
    exact bitLength_xor_le (le_max_left _ _) (le_max_right _ _)
  omega

/-- Data shifted past `b` shares no bit with it, so OR and XOR agree. -/
theorem shiftLeft_or_eq_xor {k : Nat} (hb : b < 2 ^ k) : (a <<< k) ||| b = (a <<< k) ^^^ b := by
  refine Nat.eq_of_testBit_eq fun i => ?_
  rw [Nat.testBit_or, Nat.testBit_xor, Nat.testBit_shiftLeft]
  by_cases hi : k ≤ i
  · have hbit : b.testBit i = false :=
      Nat.testBit_lt_two_pow (hb.trans_le (Nat.pow_le_pow_right Nat.two_pos hi))
    simp [hbit]
  · simp [hi]

end xor

section divrem
variable {g : Nat}

/-- An iteration shortens the working value (R66). -/
theorem bitLength_divremStep_lt {w : Nat} (hg : 0 < g) (h : bitLength g ≤ bitLength w) :
    bitLength (divremStep w g) < bitLength w := by
  have hw : w ≠ 0 := by
    rintro rfl
    exact absurd ((lt_bitLength_iff g 0).2 hg) (by simpa using h)
  refine bitLength_xor_lt hw ?_
  rw [bitLength_shiftLeft hg.ne']
  omega

/-- Fuel for every bit of the working value is enough, and more changes nothing. -/
theorem divremLoop_fuel_irrelevant (hg : 0 < g) {m n w : Nat} (hm : bitLength w ≤ m) (hn : bitLength w ≤ n) :
    divremLoop g m w = divremLoop g n w := by
  induction m generalizing n w with
  | zero =>
    have hshort : bitLength w < bitLength g := Nat.lt_of_le_of_lt hm ((lt_bitLength_iff g 0).2 hg)
    rw [divremLoop_short hshort, divremLoop_short hshort]
  | succ m ih =>
    rcases lt_or_ge (bitLength w) (bitLength g) with hshort | hlong
    · rw [divremLoop_short hshort, divremLoop_short hshort]
    · have hstep := bitLength_divremStep_lt hg hlong
      obtain ⟨n, rfl⟩ : ∃ k, n = k + 1 := ⟨n - 1, by omega⟩
      rw [divremLoop_long hlong, divremLoop_long hlong]
      exact ih (by omega) (by omega)

theorem divrem_of_short {d : Nat} (h : bitLength d < bitLength g) : divrem d g = d := divremLoop_short h _

theorem divrem_of_long {d : Nat} (hg : 0 < g) (h : bitLength g ≤ bitLength d) :
    divrem d g = divrem (divremStep d g) g := by
  have hstep := bitLength_divremStep_lt hg h
  calc divrem d g = divremLoop g (bitLength d + 1) d := divremLoop_fuel_irrelevant hg le_rfl (Nat.le_succ _)
    _ = divremLoop g (bitLength d) (divremStep d g) := divremLoop_long h _
    _ = divrem (divremStep d g) g := divremLoop_fuel_irrelevant hg hstep.le le_rfl

/-- Settles O11: the loop's bound never binds, so DIVREM is unrolled once on a long value and is the value on a short
one. -/
theorem divremIsTheSpecifiedLoop : Obligations.DivremIsTheSpecifiedLoop := by
  unfold Obligations.DivremIsTheSpecifiedLoop
  intro d g hg
  split
  case isTrue hlong => exact divrem_of_long hg hlong
  case isFalse hshort => exact divrem_of_short (Nat.not_le.1 hshort)

/-- Induction along the loop of DIVREM: what holds of every value shorter than `g`, and of a long value as soon as of
the next working value, holds of every value. -/
theorem divrem_induction {P : Nat → Prop} (hg : 0 < g) (short : ∀ d, bitLength d < bitLength g → P d)
    (long : ∀ d, bitLength g ≤ bitLength d → P (divremStep d g) → P d) (d : Nat) : P d := by
  induction hn : bitLength d using Nat.strong_induction_on generalizing d with
  | _ n ih =>
    rcases lt_or_ge (bitLength d) (bitLength g) with hshort | hlong
    · exact short d hshort
    · exact long d hlong (ih _ (hn ▸ bitLength_divremStep_lt hg hlong) _ rfl)

/-- The remainder is shorter than the generator (R66). -/
theorem bitLength_divrem_lt (hg : 0 < g) (d : Nat) : bitLength (divrem d g) < bitLength g := by
  induction d using divrem_induction hg with
  | short d h => rwa [divrem_of_short h]
  | long d h ih => rwa [divrem_of_long hg h]

theorem divremStep_xor_of_short {d r : Nat} (hd : bitLength g ≤ bitLength d) (hr : bitLength r < bitLength g) :
    divremStep (d ^^^ r) g = divremStep d g ^^^ r := by
  rw [divremStep, divremStep, bitLength_xor_of_lt (hr.trans_le hd)]
  ac_rfl

/-- Bits below the generator's degree pass through the division. -/
theorem divrem_xor_of_short (hg : 0 < g) {r : Nat} (hr : bitLength r < bitLength g) (d : Nat) :
    divrem (d ^^^ r) g = divrem d g ^^^ r := by
  induction d using divrem_induction hg with
  | short d h =>
    have hxor : bitLength (d ^^^ r) < bitLength g :=
      Nat.lt_of_le_of_lt (bitLength_xor_le (le_max_left _ _) (le_max_right _ _)) (max_lt h hr)
    rw [divrem_of_short h, divrem_of_short hxor]
  | long d h ih =>
    have hxor : bitLength g ≤ bitLength (d ^^^ r) := h.trans (bitLength_xor_of_lt (hr.trans_le h)).ge
    rw [divrem_of_long hg h, divrem_of_long hg hxor, divremStep_xor_of_short h hr, ih]

/-- A value XOR its own remainder is a multiple of the generator (R67). -/
theorem divrem_xor_divrem (hg : 0 < g) (d : Nat) : divrem (d ^^^ divrem d g) g = 0 := by
  rw [divrem_xor_of_short hg (bitLength_divrem_lt hg d), Nat.xor_self]

end divrem

section codeword
variable {degree g : Nat} (hbits : bitLength g = degree + 1) (v : Nat)
include hbits

theorem pos_of_bitLength_eq_succ : 0 < g := (lt_bitLength_iff g 0).1 (by omega)

/-- A generator of degree `degree` leaves a remainder of `degree` bits. -/
theorem divrem_lt_two_pow : divrem v g < 2 ^ degree := by
  have hlt := bitLength_divrem_lt (pos_of_bitLength_eq_succ hbits) v
  rw [← bitLength_le_iff]
  omega

theorem codeword_eq_xor : codeword v degree g = (v <<< degree) ^^^ divrem (v <<< degree) g :=
  shiftLeft_or_eq_xor (divrem_lt_two_pow hbits _)

theorem divrem_codeword : divrem (codeword v degree g) g = 0 := by
  rw [codeword_eq_xor hbits, divrem_xor_divrem (pos_of_bitLength_eq_succ hbits)]

/-- The data is recovered by dropping the remainder's bits. -/
theorem codeword_shiftRight : codeword v degree g >>> degree = v := by
  have hrem : divrem (v <<< degree) g >>> degree = 0 :=
    Nat.shiftRight_eq_zero _ _ (divrem_lt_two_pow hbits _)
  rw [codeword, Nat.shiftRight_or_distrib, Nat.shiftLeft_shiftRight, hrem, Nat.or_zero]

/-- `n` bits of data make a codeword of `n + degree` bits. -/
theorem codeword_lt {v n : Nat} (hv : v < 2 ^ n) : codeword v degree g < 2 ^ (n + degree) := by
  have hrem := divrem_lt_two_pow hbits (v <<< degree)
  refine Nat.or_lt_two_pow ?_ (hrem.trans_le (Nat.pow_le_pow_right Nat.two_pos (Nat.le_add_left _ _)))
  rw [Nat.shiftLeft_eq, Nat.pow_add]
  exact Nat.mul_lt_mul_of_pos_right hv (Nat.two_pow_pos _)

end codeword

theorem bitLength_g15 : bitLength g15.toNat = 10 + 1 := by decide

theorem bitLength_g18 : bitLength g18.toNat = 12 + 1 := by decide

/-- The mask of R69 comes off by a second XOR. -/
theorem formatInfo_xor_mask (v : Nat) : formatInfo v ^^^ g15Mask.toNat = codeword v 10 g15.toNat :=
  Nat.xor_xor_cancel_right _ _

theorem formatInfo_lt {v : Nat} (hv : v < 32) : formatInfo v < 2 ^ 15 :=
  Nat.xor_lt_two_pow (codeword_lt bitLength_g15 (n := 5) hv) g15Mask.isLt

theorem versionInfo_lt {v : Nat} (hv : v ≤ 40) : versionInfo v < 2 ^ 18 :=
  codeword_lt bitLength_g18 (n := 6) (by omega)

theorem fmtencRule_of_lt {v : Nat} (hv : v < 32) : fmtencRule v = .ok (formatInfo v) := if_pos hv

theorem fmtencRule_of_le {v : Nat} (hv : 32 ≤ v) : fmtencRule v = .error .pfFmtData := if_neg (Nat.not_lt.2 hv)

theorem verencRule_of_mem {v : Nat} (hlo : 7 ≤ v) (hhi : v ≤ 40) : verencRule v = .ok (versionInfo v) :=
  if_pos ⟨hlo, hhi⟩

theorem verencRule_of_not_mem {v : Nat} (hv : v < 7 ∨ 40 < v) : verencRule v = .error .pfVerData :=
  if_neg (by omega)

/-- The unwritten-operand case of `runOnArg`, beside `runOnArg_ok` and `runOnArg_error`. -/
theorem runOnArg_unwritten {f : Nat → Except FaultCode Nat} {s : State} (ho : operand s = none) :
    runOnArg false f s = raiseFault .pfUnwrittenArg s := by
  simp [runOnArg, ho]

/-- Settles O16: BITLEN's rule has no precondition, so `runOnArg` faults on an unwritten ARG only; a 32-bit value is
below `2^32`, hence at most 32 bits long. -/
theorem bitlenGivesTheBitLength : Obligations.BitlenGivesTheBitLength := by
  unfold Obligations.BitlenGivesTheBitLength
  refine ⟨fun s v ho => ?_, fun s ho => ?_, fun v => (bitLength_le_iff _ _).2 v.isLt, ?_⟩
  · exact congrArg Host.Outcome.next (runOnArg_ok ho rfl)
  · exact congrArg Host.Outcome.next (runOnArg_unwritten ho)
  · decide

/-- Settles O17: FMTENC's rule splits at 32, and `runOnArg` writes its result or raises its fault; the properties are
those of a codeword of `g15` once the mask is off. -/
theorem fmtencGivesTheFormatInfo : Obligations.FmtencGivesTheFormatInfo := by
  unfold Obligations.FmtencGivesTheFormatInfo
  refine ⟨fun s v ho hv => ?_, fun s v ho hv => ?_, by decide, by decide, fun v hv => ?_⟩
  · exact congrArg Host.Outcome.next (runOnArg_ok ho (fmtencRule_of_lt hv))
  · exact congrArg Host.Outcome.next (runOnArg_error ho (fmtencRule_of_le hv))
  · rw [formatInfo_xor_mask]
    exact ⟨formatInfo_lt hv, divrem_lt_two_pow bitLength_g15 _, codeword_shiftRight bitLength_g15 v,
      divrem_codeword bitLength_g15 v⟩

/-- Settles O18: VERENC's rule admits exactly 7..40, and `runOnArg` writes its result or raises its fault; the
properties are those of a codeword of `g18`. -/
theorem verencGivesTheVersionInfo : Obligations.VerencGivesTheVersionInfo := by
  unfold Obligations.VerencGivesTheVersionInfo
  refine ⟨fun s v ho hlo hhi => ?_, fun s v ho hv => ?_, by decide, by decide, fun v _ hhi => ?_⟩
  · exact congrArg Host.Outcome.next (runOnArg_ok ho (verencRule_of_mem hlo hhi))
  · exact congrArg Host.Outcome.next (runOnArg_error ho (verencRule_of_not_mem hv))
  · exact ⟨versionInfo_lt hhi, divrem_lt_two_pow bitLength_g18 _, codeword_shiftRight bitLength_g18 v,
      divrem_codeword bitLength_g18 v⟩

end Sys2Proof.Machine
end

