-- ==== Sys2Proof/Proofs/PenaltyRules.lean ====
section
/-! SUPPORT. The four penalty rules (R72 to R75) as counts over the modules, blocks and windows of the port. -/

namespace Sys2Proof.Machine

/-- A grid that adds `k` where `p` holds and 0 elsewhere counts the places where `p` holds. -/
theorem gridSum_ite (rows cols k : Nat) (p : Nat → Nat → Prop) [∀ r c, Decidable (p r c)] :
    gridSum rows cols (fun r c => if p r c then k else 0)
      = k * ((Finset.range rows ×ˢ Finset.range cols).filter fun q => p q.1 q.2).card := by
  rw [gridSum_eq_sum, ← Finset.sum_product', ← Finset.sum_filter, Finset.sum_const, smul_eq_mul, mul_comm]

/-! ### Rule 1 -/

/-- `neighbourOffsets` lists `{-1,0,1}^2` without `(0,0)` (R72), each offset once. -/
theorem toFinset_neighbourOffsets :
    neighbourOffsets.toFinset = (Finset.Icc (-1 : ℤ) 1 ×ˢ Finset.Icc (-1 : ℤ) 1).erase (0, 0) := by decide

theorem nodup_neighbourOffsets : neighbourOffsets.Nodup := by decide

theorem countP_neighbourOffsets (p : Int × Int → Bool) :
    neighbourOffsets.countP p = (neighbourOffsets.toFinset.filter fun d => p d = true).card := by
  rw [← List.toFinset_filter, List.toFinset_card_of_nodup (nodup_neighbourOffsets.filter p),
    List.countP_eq_length_filter]

theorem sameAt_eq_true {m : PortMatrix} {r c : Nat} {d : Int × Int} :
    sameAt m r c d = true ↔
      0 ≤ (r : ℤ) + d.1 ∧ (r : ℤ) + d.1 < moduleCount m ∧ 0 ≤ (c : ℤ) + d.2 ∧ (c : ℤ) + d.2 < moduleCount m
        ∧ darkAt m ((r : ℤ) + d.1).toNat ((c : ℤ) + d.2).toNat = darkAt m r c := by
  simp [sameAt, and_assoc]

theorem sameNeighbours_le (m : PortMatrix) (r c : Nat) : sameNeighbours m r c ≤ 8 := List.countP_le_length

/-- Settles O21: the offsets are counted in a list or in a set alike, as the list has none twice. -/
theorem ruleOneCountsNeighbourhoods : Obligations.RuleOneCountsNeighbourhoods := by
  unfold Obligations.RuleOneCountsNeighbourhoods
  intro m k
  have hk : ∀ r c, k r c = sameNeighbours m r c := by
    intro r c
    rw [sameNeighbours, countP_neighbourOffsets, toFinset_neighbourOffsets]
    simp only [sameAt_eq_true, k]
  simp only [hk]
  exact ⟨gridSum_eq_sum _ _ _, sameNeighbours_le m⟩

/-! ### Rule 2 -/

/-- A block's `s` is 0 or 4 exactly when its other three modules have the colour of the first (R73). -/
theorem blockDark_uniform_iff (m : PortMatrix) (r c : Nat) :
    (blockDark m r c = 0 ∨ blockDark m r c = 4) ↔
      darkAt m (r + 1) c = darkAt m r c ∧ darkAt m r (c + 1) = darkAt m r c
        ∧ darkAt m (r + 1) (c + 1) = darkAt m r c := by
  have hbits : ∀ a b d e : Bool,
      (a.toNat + b.toNat + d.toNat + e.toNat = 0 ∨ a.toNat + b.toNat + d.toNat + e.toNat = 4)
        ↔ b = a ∧ d = a ∧ e = a := by decide
  exact hbits _ _ _ _

theorem rule2_eq_zero {m : PortMatrix} (h : moduleCount m = 1) : rule2 m = 0 := by
  rw [rule2, h]
  rfl

/-- Settles O23: rule 2 adds 3 at each uniform block. -/
theorem ruleTwoCountsUniformBlocks : Obligations.RuleTwoCountsUniformBlocks := by
  unfold Obligations.RuleTwoCountsUniformBlocks
  refine fun m => ⟨?_, rule2_eq_zero⟩
  rw [rule2, gridSum_ite]
  simp only [blockDark_uniform_iff]

/-! ### Rule 3 -/

theorem isFinder_iff (module : Nat → Bool) :
    isFinder module = true ↔
      ∀ i : Fin 7, some (module i) = [true, false, true, true, true, false, true][(i : ℕ)]? := by
  rw [isFinder, beq_iff_eq, finderPattern, List.ext_getElem?_iff]
  constructor
  · intro h i
    rw [← h i, List.getElem?_map, List.getElem?_range i.isLt]
    rfl
  · intro h i
    rcases lt_or_ge i 7 with hi | hi
    · rw [List.getElem?_map, List.getElem?_range hi]
      exact h ⟨i, hi⟩
    · rw [List.getElem?_eq_none (by simpa using hi), List.getElem?_eq_none (by simpa using hi)]

theorem rule3_eq_zero {m : PortMatrix} (h : moduleCount m < 7) : rule3 m = 0 := by
  have hnone : moduleCount m - 6 = 0 := by omega
  simp [rule3, hnone, gridSum_eq_sum]

/-- Settles O24: each of rule 3's two sums adds 40 at each window that spells FP. -/
theorem ruleThreeCountsFinderWindows : Obligations.RuleThreeCountsFinderWindows := by
  unfold Obligations.RuleThreeCountsFinderWindows
  refine fun m => ⟨?_, rule3_eq_zero⟩
  rw [rule3, gridSum_ite, gridSum_ite]
  simp only [isFinder_iff]

/-! ### Rule 4 -/

theorem absR_eq_abs (x : Rat) : absR x = |x| := by
  unfold absR
  split
  case isTrue h => exact (abs_of_neg h).symm
  case isFalse h => exact (abs_of_nonneg (not_lt.1 h)).symm

/-- `D` counts the dark modules (R75). -/
theorem darkCount_eq_card (m : PortMatrix) :
    darkCount m = ((Finset.range (moduleCount m) ×ˢ Finset.range (moduleCount m)).filter fun p =>
      darkAt m p.1 p.2 = true).card := by
  simp only [darkCount, Bool.toNat, Bool.cond_eq_ite]
  rw [gridSum_ite, one_mul]

theorem darkCount_le (m : PortMatrix) : darkCount m ≤ moduleCount m * moduleCount m := by
  have hle := gridSum_le (rows := moduleCount m) (cols := moduleCount m) (k := 1)
    (fun r c _ _ => Bool.toNat_le (darkAt m r c))
  rwa [mul_one] at hle

theorem balanceQuotient_successive (n d : Nat) :
    balanceQuotient .successive n d = fl64 (fl64 (fl64 (100 * (d : ℚ)) / n) / n) := by
  simp [balanceQuotient]

theorem balanceQuotient_single (n d : Nat) :
    balanceQuotient .single n d = fl64 (fl64 (100 * (d : ℚ)) / ((n : ℚ) * n)) := by
  simp [balanceQuotient]

theorem rule4_eq (b : Config.BalDiv) (m : PortMatrix) :
    rule4 b m = fl64 (fl64 (|fl64 (balanceQuotient b (moduleCount m) (darkCount m) - 50)| / 5) * 10) := by
  rw [rule4, balanceTerm, absR_eq_abs]

/-- Settles O25: `D` is a count of at most `n * n` modules, and T4 is the quotient of each setting put through the same
operations. -/
theorem ruleFourOperationSequence : Obligations.RuleFourOperationSequence := by
  unfold Obligations.RuleFourOperationSequence
  intro m n d
  have hd : darkCount m = d := darkCount_eq_card m
  rw [rule4_eq, rule4_eq, balanceQuotient_successive, balanceQuotient_single, hd]
  exact ⟨hd ▸ darkCount_le m, rfl, rfl⟩

end Sys2Proof.Machine
end

