-- ==== Sys2Proof/Proofs/Eval.lean ====
section
/-! SUPPORT. EVAL (R71): its next states, and the terms and the score of a port of one colour. -/

namespace Sys2Proof.Machine

/-- Every module of the port has the colour `colour`. -/
def OneColour (m : PortMatrix) (colour : Bool) : Prop :=
  ∀ r c, r < moduleCount m → c < moduleCount m → darkAt m r c = colour

/-! ### The neighbours of a module, by where it stands -/

/-- The offsets that stay in the matrix bound the like neighbours: a condition they all meet counts at least as many. -/
theorem sameNeighbours_le_countP {m : PortMatrix} {r c : Nat} {e : Int × Int → Prop} [DecidablePred e]
    (h : ∀ d : Int × Int, 0 ≤ (r : ℤ) + d.1 → (r : ℤ) + d.1 < moduleCount m → 0 ≤ (c : ℤ) + d.2 →
      (c : ℤ) + d.2 < moduleCount m → e d) :
    sameNeighbours m r c ≤ neighbourOffsets.countP fun d => decide (e d) := by
  refine List.countP_mono_left fun d _ hd => ?_
  obtain ⟨hr0, hrn, hc0, hcn, _⟩ := sameAt_eq_true.1 hd
  exact decide_eq_true (h d hr0 hrn hc0 hcn)

/-- A module on an edge has three offsets out of the matrix, so at most five neighbours are left. -/
theorem sameNeighbours_le_of_edge {m : PortMatrix} {r c : Nat}
    (h : r = 0 ∨ c = 0 ∨ r + 1 = moduleCount m ∨ c + 1 = moduleCount m) : sameNeighbours m r c ≤ 5 := by
  rcases h with h | h | h | h
  · exact sameNeighbours_le_countP (e := fun d => d.1 ≠ -1) fun d _ _ _ _ => by omega
  · exact sameNeighbours_le_countP (e := fun d => d.2 ≠ -1) fun d _ _ _ _ => by omega
  · exact sameNeighbours_le_countP (e := fun d => d.1 ≠ 1) fun d _ _ _ _ => by omega
  · exact sameNeighbours_le_countP (e := fun d => d.2 ≠ 1) fun d _ _ _ _ => by omega

theorem mem_neighbourOffsets : ∀ d ∈ neighbourOffsets, -1 ≤ d.1 ∧ d.1 ≤ 1 ∧ -1 ≤ d.2 ∧ d.2 ≤ 1 := by decide

/-- FP has both colours, so seven modules of one colour do not spell it (R74). -/
theorem isFinder_eq_false {module : Nat → Bool} (h : module 1 = module 0) : isFinder module = false := by
  rw [Bool.eq_false_iff, Ne, isFinder_iff]
  intro hf
  have h0 : module 0 = true := Option.some.inj (hf 0)
  have h1 : module 1 = false := Option.some.inj (hf 1)
  rw [h, h0] at h1
  cases h1

section oneColour
variable {m : PortMatrix} {colour : Bool} (hm : OneColour m colour)
include hm

/-- An inner module of a one-coloured port has all eight neighbours. -/
theorem sameNeighbours_of_inner {r c : Nat} (hr : 0 < r ∧ r + 1 < moduleCount m) (hc : 0 < c ∧ c + 1 < moduleCount m) :
    sameNeighbours m r c = 8 := by
  refine List.countP_eq_length.2 fun d hd => ?_
  obtain ⟨h1, h2, h3, h4⟩ := mem_neighbourOffsets d hd
  rw [sameAt_eq_true, hm r c (by omega) (by omega), hm _ _ (by omega) (by omega)]
  exact ⟨by omega, by omega, by omega, by omega, rfl⟩

/-- Each of the `(n-2)^2` inner modules adds 6 (R72). -/
theorem rule1_of_oneColour : rule1 m = 6 * (moduleCount m - 2) ^ 2 := by
  have hinner : ∀ r c, r < moduleCount m → c < moduleCount m →
      (if sameNeighbours m r c > 5 then 3 + (sameNeighbours m r c - 5) else 0)
        = if (0 < r ∧ r + 1 < moduleCount m) ∧ 0 < c ∧ c + 1 < moduleCount m then 6 else 0 := by
    intro r c hr hc
    split_ifs with h1 h2 h2
    · rw [sameNeighbours_of_inner hm h2.1 h2.2]
    · have hedge := sameNeighbours_le_of_edge (m := m) (r := r) (c := c) (by omega)
      omega
    · rw [sameNeighbours_of_inner hm h2.1 h2.2] at h1
      omega
    · rfl
  have hset : ((Finset.range (moduleCount m) ×ˢ Finset.range (moduleCount m)).filter fun q =>
      (0 < q.1 ∧ q.1 + 1 < moduleCount m) ∧ 0 < q.2 ∧ q.2 + 1 < moduleCount m)
        = Finset.Ioo 0 (moduleCount m - 1) ×ˢ Finset.Ioo 0 (moduleCount m - 1) := by
    ext q
    simp only [Finset.mem_filter, Finset.mem_product, Finset.mem_range, Finset.mem_Ioo]
    omega
  rw [rule1, gridSum_congr hinner, gridSum_ite, hset, Finset.card_product, Nat.card_Ioo, sq]
  rfl

/-- Each of the `(n-1)^2` blocks adds 3 (R73). -/
theorem rule2_of_oneColour : rule2 m = 3 * (moduleCount m - 1) ^ 2 := by
  have hblock : ∀ r c, r < moduleCount m - 1 → c < moduleCount m - 1 →
      (if blockDark m r c = 0 ∨ blockDark m r c = 4 then 3 else 0) = 3 := by
    intro r c hr hc
    rw [if_pos ((blockDark_uniform_iff m r c).2 ?_)]
    rw [hm _ _ (by omega) (by omega), hm _ _ (by omega) (by omega), hm _ _ (by omega) (by omega),
      hm _ _ (by omega) (by omega)]
    exact ⟨rfl, rfl, rfl⟩
  rw [rule2, gridSum_congr hblock, gridSum_eq_sum]
  simp only [Finset.sum_const, Finset.card_range, smul_eq_mul]
  ring

theorem rule3_of_oneColour : rule3 m = 0 := by
  have hrow : ∀ r c, r < moduleCount m → c < moduleCount m - 6 →
      (if isFinder (fun i => darkAt m r (c + i)) then 40 else 0) = 0 := by
    intro r c hr hc
    rw [isFinder_eq_false, if_neg Bool.false_ne_true]
    rw [hm _ _ hr (by omega), hm _ _ hr (by omega)]
  have hcolumn : ∀ c r, c < moduleCount m → r < moduleCount m - 6 →
      (if isFinder (fun i => darkAt m (r + i) c) then 40 else 0) = 0 := by
    intro c r hc hr
    rw [isFinder_eq_false, if_neg Bool.false_ne_true]
    rw [hm _ _ (by omega) hc, hm _ _ (by omega) hc]
  rw [rule3, gridSum_congr hrow, gridSum_congr hcolumn, gridSum_eq_sum]
  simp

theorem darkCount_of_oneColour : darkCount m = colour.toNat * (moduleCount m * moduleCount m) := by
  have hterm : ∀ r c, r < moduleCount m → c < moduleCount m → (darkAt m r c).toNat = colour.toNat :=
    fun r c hr hc => congrArg Bool.toNat (hm r c hr hc)
  rw [darkCount, gridSum_congr hterm, gridSum_eq_sum]
  simp only [Finset.sum_const, Finset.card_range, smul_eq_mul]
  ring

end oneColour

/-! ### The score of a one-coloured port -/

theorem fl64_intCast {k : Int} (h : |k| < 2 ^ 53) : fl64 (k : ℚ) = k :=
  fl64_of_rep ⟨k, 0, h, by norm_num, by rw [pow2_eq_zpow]; simp⟩

theorem fl64_natCast {k : Nat} (h : k < 2 ^ 53) : fl64 (k : ℚ) = k := by
  exact_mod_cast fl64_intCast (k := k) (by rw [Nat.abs_cast]; exact_mod_cast h)

/-- With no dark module, or with all of them dark, every operation of the quotient is exact: 0 or 100 percent. -/
theorem balanceQuotient_of_oneColour (b : Config.BalDiv) (colour : Bool) {n : Nat} (h1 : 1 ≤ n) (h255 : n ≤ 255) :
    balanceQuotient b n (colour.toNat * (n * n)) = ((100 * colour.toNat : Nat) : ℚ) := by
  have hn : (n : ℚ) ≠ 0 := by exact_mod_cast (show n ≠ 0 by omega)
  have hc : colour.toNat ≤ 1 := Bool.toNat_le colour
  have hsq : n * n ≤ 255 * 255 := Nat.mul_le_mul h255 h255
  have hx : fl64 (100 * ((colour.toNat * (n * n) : Nat) : ℚ)) = 100 * ((colour.toNat * (n * n) : Nat) : ℚ) := by
    exact_mod_cast fl64_natCast (k := 100 * (colour.toNat * (n * n))) (by nlinarith)
  cases b with
  | successive =>
    have hfirst : 100 * ((colour.toNat * (n * n) : Nat) : ℚ) / n = ((100 * colour.toNat * n : Nat) : ℚ) := by
      push_cast
      field_simp
    have hsecond : ((100 * colour.toNat * n : Nat) : ℚ) / n = ((100 * colour.toNat : Nat) : ℚ) := by
      push_cast
      field_simp
    rw [balanceQuotient_successive, hx, hfirst, fl64_natCast (by nlinarith), hsecond, fl64_natCast (by omega)]
  | single =>
    have hdiv : 100 * ((colour.toNat * (n * n) : Nat) : ℚ) / ((n : ℚ) * n) = ((100 * colour.toNat : Nat) : ℚ) := by
      push_cast
      field_simp
    rw [balanceQuotient_single, hx, hdiv, fl64_natCast (by omega)]

/-- The balance of 0 or of 100 percent is 50 off, whatever the colour: T4 is 100 (R75). -/
theorem rule4_of_oneColour (b : Config.BalDiv) {m : PortMatrix} {colour : Bool} (hm : OneColour m colour)
    (h1 : 1 ≤ moduleCount m) : rule4 b m = 100 := by
  have hoff : |fl64 (((100 * colour.toNat : Nat) : ℚ) - 50)| = 50 := by
    have hfl := fl64_intCast (k := 100 * colour.toNat - 50) (by cases colour <;> norm_num)
    push_cast at hfl ⊢
    rw [hfl]
    cases colour <;> norm_num
  have h10 : fl64 (50 / 5) = 10 := by
    rw [show (50 / 5 : ℚ) = (10 : Nat) by norm_num]
    exact fl64_natCast (by norm_num)
  have h100 : fl64 (10 * 10) = 100 := by
    rw [show (10 * 10 : ℚ) = (100 : Nat) by norm_num]
    exact fl64_natCast (by norm_num)
  rw [rule4_eq, darkCount_of_oneColour hm, balanceQuotient_of_oneColour b colour h1 (moduleCount_le m), hoff, h10, h100]

theorem scoreValue_of_oneColour (b : Config.BalDiv) {m : PortMatrix} {colour : Bool} (hm : OneColour m colour)
    (h1 : 1 ≤ moduleCount m) :
    scoreValue b m = ((6 * (moduleCount m - 2) ^ 2 + 3 * (moduleCount m - 1) ^ 2 + 100 : Nat) : ℚ) := by
  have hn := moduleCount_le m
  have hsq1 : (moduleCount m - 2) ^ 2 ≤ 255 ^ 2 := Nat.pow_le_pow_left (by omega) 2
  have hsq2 : (moduleCount m - 1) ^ 2 ≤ 255 ^ 2 := Nat.pow_le_pow_left (by omega) 2
  rw [scoreValue, rule1_of_oneColour hm, rule2_of_oneColour hm, rule3_of_oneColour hm, rule4_of_oneColour b hm h1,
    accumulate, fl64_natCast (by omega), Nat.add_zero]
  exact_mod_cast fl64_natCast (k := 6 * (moduleCount m - 2) ^ 2 + 3 * (moduleCount m - 1) ^ 2 + 100) (by omega)

/-! ### EVAL -/

theorem oneColour_of_moduleCount_one {m : PortMatrix} (h : moduleCount m = 1) : OneColour m (darkAt m 0 0) := by
  intro r c hr hc
  obtain rfl : r = 0 := by omega
  obtain rfl : c = 0 := by omega
  rfl

theorem oneColour_replicate (n : Fin 256) (colour : Bool) :
    OneColour { n := n, modules := Vector.replicate n (Vector.replicate n colour) } colour := by
  intro r c hr hc
  simp only [moduleCount] at hr hc
  simp [darkAt, hr, hc]

theorem exec_eval_of_modules {s : State} (h : moduleCount s.matrix ≠ 0) :
    exec (.eval false) s = .next (complete (writeScore (scoreBits s.params.balDiv s.matrix) s)) := by
  simp [exec, execEval, h]

theorem exec_eval_no_modules {s : State} (h : moduleCount s.matrix = 0) :
    exec (.eval false) s = .next (raiseFault .pfMatrix s) := by
  simp [exec, execEval, h]

/-- Settles O20: the three next states are the branches of EVAL; the all-light port and every port of one module are
ports of one colour. -/
theorem evalWritesTheScore : Obligations.EvalWritesTheScore := by
  unfold Obligations.EvalWritesTheScore
  refine ⟨fun s => exec_eval_of_modules, fun s => exec_eval_no_modules,
    exec_of_absentBit (i := .eval true) rfl (by simp), fun b => ?_, fun b m h => ?_, fun m => rule3_eq_zero⟩
  · intro light
    have hm : OneColour light false := oneColour_replicate 21 false
    have hn : moduleCount light = 21 := rfl
    have hpos : 1 ≤ moduleCount light := by omega
    rw [rule1_of_oneColour hm, rule2_of_oneColour hm, rule3_of_oneColour hm, rule4_of_oneColour b hm hpos, scoreBits,
      scoreValue_of_oneColour b hm hpos, hn]
    exact ⟨rfl, rfl, rfl, rfl, by decide +kernel⟩
  · have hm := oneColour_of_moduleCount_one h
    rw [rule1_of_oneColour hm, rule2_of_oneColour hm, rule3_of_oneColour hm, scoreBits,
      scoreValue_of_oneColour b hm h.ge, h]
    exact ⟨rfl, rfl, rfl, by decide +kernel⟩

end Sys2Proof.Machine
end

