-- ==== Sys2Proof/Proofs/PreconditionFault.lean ====
section
/-! SUPPORT. A precondition fault (R85): the one result of a command that touches FAULTS. -/

namespace Sys2Proof.Machine

/-- Of what a command can answer, only the shared fault operation changes FAULTS. -/
theorem ExecResult.eq_raiseFault_of_faults_ne {i : Instr} {s t : State} (h : ExecResult i s t)
    (hne : t.faults ≠ s.faults) : ∃ c, t = raiseFault c s := by
  cases h with
  | fault c => exact ⟨c, rfl⟩
  | size _ _ _ _ _ => exact absurd (by simp) hne
  | result _ _ _ _ _ _ => exact absurd (by simp) hne
  | score _ _ => exact absurd (by simp) hne

/-- Settles O34: a command that changes FAULTS answers `raiseFault`, whose fields are those of R85. -/
theorem preconditionFaultEffect : Obligations.PreconditionFaultEffect := by
  unfold Obligations.PreconditionFaultEffect
  intro s t i h hne
  obtain ⟨c, rfl⟩ := (exec_inv h).eq_raiseFault_of_faults_ne hne
  exact ⟨c, rfl⟩

end Sys2Proof.Machine
end

