-- ==== Sys2Proof/Proofs/BusyAccess.lean ====
section
/-! SUPPORT. HOST accesses while BUSY = 1 (R102): the result registers are refused for reading. -/

namespace Sys2Proof.Machine

theorem readResultReg_busy {s : State} (hb : s.status.busy = true) (r : Option Word) :
    readResultReg s r = .error .hfBusyRead := if_pos hb

theorem accessSlot_read_of_error {r : Slot} {c : FaultCode} {s : State} (h : readSlot r s = .error c) :
    accessSlot r .read s = hostFault c s := by
  simp [accessSlot, h]

/-- RESULT and the two halves of SCORE are the registers a busy block refuses for reading, whatever they hold. -/
theorem accessSlot_result_read_busy {s : State} (hb : s.status.busy = true) {r : Slot}
    (hr : r = .result ∨ r = .scoreLo ∨ r = .scoreHi) : accessSlot r .read s = hostFault .hfBusyRead s := by
  obtain rfl | rfl | rfl := hr
  · exact accessSlot_read_of_error (readResultReg_busy hb s.result)
  · exact accessSlot_read_of_error (readResultReg_busy hb (s.score.map scoreLo))
  · exact accessSlot_read_of_error (readResultReg_busy hb (s.score.map scoreHi))

/-- Settles O40: ARG and CTRL refuse the write, RESULT and SCORE the read; STATUS, CTRL and ARG are read as when idle. -/
theorem accessesWhileBusy : Obligations.AccessesWhileBusy := by
  unfold Obligations.AccessesWhileBusy
  intro s hb
  refine ⟨fun v => ?_, fun r => accessSlot_result_read_busy hb, rfl, rfl, fun v => accessSlot_arg_read_written⟩
  exact ⟨accessSlot_arg_write_busy v hb, writeSlot_ctrl_busy v hb, rfl, rfl, rfl, rfl⟩

end Sys2Proof.Machine
end

