-- ==== Sys2Proof/Proofs/ResetInput.lean ====
section
/-! SUPPORT. The reset input (R99): its turn is never passed, and it leaves the block ready for a command. -/

namespace Sys2Proof.Machine

theorem step_reset {s : State} {ts : List Turn} (ht : s.turns = .reset :: ts) :
    step s = .next (assertReset { s with turns := ts }) := by
  simp [step, ht, takeTurn]

theorem writeSlot_ctrl_assertReset (w : Word) (s : State) :
    writeSlot .ctrl w (assertReset s) = startCommand w (assertReset s) :=
  writeSlot_ctrl_idle w (by simp)

/-- Settles O49: the turn's next state is `assertReset`'s, where BUSY = 0 lets the next CTRL write start a command. -/
theorem resetEvent : Obligations.ResetEvent := by
  unfold Obligations.ResetEvent
  intro s ts ht
  refine ⟨_, step_reset ht, rfl, rfl, rfl, rfl, statusWord_reset, rfl, rfl, rfl, fun w => ?_⟩
  rw [writeSlot_ctrl_assertReset]
  simp

end Sys2Proof.Machine
end

