-- ==== Sys2Proof/Proofs/Encoding.lean ====
section
/-! SUPPORT. The CTRL word of a command (R49, R50, R52): its three fields are all a decoded word holds; and the step of
the CORE on a latched command (R56). -/

namespace Sys2Proof

/-- A word is made of its three fields: no bit lies outside them. -/
theorem ctrlWord_fields (w : Word) : ctrlWord (rsvdField w) (absentField w) (opcField w) = w :=
  Machine.pendWord_latch w none

/-- A word that decodes to a command has the command's fields. -/
theorem fields_of_decode_command {w : Word} {i : Instr} (h : decode w = .command i) :
    rsvdField w = 0#23 ∧ absentField w = i.absentBit ∧ opcField w = opcOf i := by
  unfold decode at h
  split at h
  case isTrue => cases h
  case isFalse hr =>
    refine ⟨not_not.1 hr, ?_⟩
    split at h
    case h_7 => cases h
    all_goals
      rename_i ho
      cases h
      exact ⟨rfl, BitVec.eq_of_toNat_eq ho⟩

theorem encode_of_decode {w : Word} {i : Instr} (h : decode w = .command i) : encode i = w := by
  obtain ⟨hr, ha, ho⟩ := fields_of_decode_command h
  rw [encode, ← hr, ← ha, ← ho, ctrlWord_fields]

theorem decode_encode (i : Instr) : decode (encode i) = .command i := by
  cases i with
  | symsize a | totalcw a | bitlen a | fmtenc a | verenc a | eval a => cases a <;> decide

/-- Settles O1: one way word by word over the twelve commands, the other by the fields of the decoded word. -/
theorem commandsAndLegalWordsCorrespond : Obligations.CommandsAndLegalWordsCorrespond := by
  unfold Obligations.CommandsAndLegalWordsCorrespond
  exact ⟨fun i _ => decode_encode i, fun w i => encode_of_decode⟩

/-- Settles O2: the decoder is run on each of the fifteen words. -/
theorem writtenWordsDecodeAsListed : Obligations.WrittenWordsDecodeAsListed := by
  unfold Obligations.WrittenWordsDecodeAsListed
  decide

namespace Machine

section
variable {s : State}

theorem performPend_of_command {p : Pend} {i : Instr} (hd : decode (pendWord p) = .command i) :
    performPend p s = exec i s := by
  simp [performPend, hd]

/-- With BUSY = 1 and no turn laid down the CORE acts. -/
theorem step_unscheduled_busy (ht : s.turns = []) (hb : s.status.busy = true) : step s = perform s := by
  simp [step, ht, unscheduled, hb]

theorem perform_of_command {p : Pend} {i : Instr} (hp : s.pend = some p) (hd : decode (pendWord p) = .command i) :
    perform s = exec i s :=
  (perform_of_pend hp).trans (performPend_of_command hd)

theorem step_core_of_command {p : Pend} {i : Instr} {ts : List Turn} (ht : s.turns = .core :: ts)
    (hb : s.status.busy = true) (hp : s.pend = some p) (hd : decode (pendWord p) = .command i) :
    step s = exec i { s with turns := ts } :=
  (step_core_busy ht hb).trans (perform_of_command hp hd)

end

/-- Settles O4: a CORE turn, no turn and `withFetchWord` all come to `perform` on the latched command. -/
theorem stepRunsTheLatchedCommand : Obligations.StepRunsTheLatchedCommand := by
  unfold Obligations.StepRunsTheLatchedCommand
  refine ⟨fun s p i hb hp hd _ => ⟨fun ts ht => ?_, fun ht => ?_⟩, fun s w i hw hd => ?_⟩
  · exact step_core_of_command ht hb hp hd
  · exact (step_unscheduled_busy ht hb).trans (perform_of_command hp hd)
  · have hstep : step (s.withFetchWord 32 w) = perform (startCommand (BitVec.ofNat 32 (w % 2 ^ 32)) s) :=
      step_core_busy rfl rfl
    rw [hstep, Nat.mod_eq_of_lt hw]
    exact perform_of_command rfl (by rwa [pendWord_latch])

end Machine

end Sys2Proof
end

