-- ==== Sys2Proof/Proofs/CommandEffects.lean ====
section
/-! SUPPORT. What each command's `perform` writes (R31) and the order of its tests (R87), from what a command can
answer. -/

namespace Sys2Proof.Machine

section
variable {i : Instr} {s t : State}

/-- No command writes the parameters, ARG, the port, the HOST's own fields or the turns (R31). -/
theorem ExecResult.frame (h : ExecResult i s t) :
    t.params = s.params ∧ t.arg = s.arg ∧ t.matrix = s.matrix ∧ t.hostStopped = s.hostStopped
      ∧ t.script = s.script ∧ t.turns = s.turns ∧ t.reads = s.reads := by
  cases h with
  | fault | size | result | score => simp

/-- Every command is completed, and none touches ILLOP (R56). -/
theorem ExecResult.completed (h : ExecResult i s t) :
    t.pend = none ∧ t.status.busy = false ∧ t.status.done = true ∧ t.status.illop = s.status.illop := by
  cases h with
  | fault | size | result | score => simp

/-- INVARG is SYMSIZE's alone (R61). -/
theorem ExecResult.invarg_eq (h : ExecResult i s t) (hi : ∀ a, i ≠ .symsize a) :
    t.status.invarg = s.status.invarg := by
  cases h with
  | size a _ _ ha => exact absurd ha (hi a)
  | fault | result | score => simp

/-- SCORE is EVAL's alone, with ABSENT = 0 (R71). -/
theorem ExecResult.score_eq (h : ExecResult i s t) (hi : i ≠ .eval false) : t.score = s.score := by
  cases h with
  | score he => exact absurd he hi
  | fault | size | result => simp

theorem ExecResult.result_eq_of_eval {a : Bool} (h : ExecResult (.eval a) s t) : t.result = s.result := by
  cases h with
  | size _ _ _ ha => cases ha
  | result _ _ _ _ hr => simp at hr
  | fault | score => simp

/-- A command either records one fault and writes no result register and no INVARG, or records none (R85). -/
theorem ExecResult.faults_cases (h : ExecResult i s t) :
    t.faults = s.faults
      ∨ (∃ c, t.faults = s.faults ++ [c]) ∧ t.result = s.result ∧ t.score = s.score
          ∧ t.status.invarg = s.status.invarg := by
  cases h with
  | fault c => exact .inr ⟨⟨c, raiseFault_faults s c⟩, by simp⟩
  | size | result | score => exact .inl (by simp)

/-- Without a fault an integer command has written RESULT. -/
theorem ExecResult.result_isSome (h : ExecResult i s t) (hf : t.faults = s.faults) (hi : ∀ a, i ≠ .eval a) :
    t.result.isSome = true := by
  cases h with
  | fault c => simp at hf
  | size | result => simp
  | score he => exact absurd he (hi false)

/-- Without a fault EVAL has written SCORE. -/
theorem ExecResult.score_isSome {a : Bool} (h : ExecResult (.eval a) s t) (hf : t.faults = s.faults) :
    t.score.isSome = true := by
  cases h with
  | fault c => simp at hf
  | size _ _ _ ha => cases ha
  | result _ _ _ _ hr => simp at hr
  | score => simp

end

theorem perform_of_illegal {s : State} {p : Pend} {why : Illegal} (hp : s.pend = some p)
    (hd : decode (pendWord p) = .illegal why) : perform s = .next (performIllegal s) :=
  (perform_of_pend hp).trans (performPend_of_illegal hd)

/-- Settles O36: the write sets are read off the results a command can have, and off `performIllegal`. -/
theorem performWriteSets : Obligations.PerformWriteSets := by
  unfold Obligations.PerformWriteSets
  refine ⟨fun i s t h => ?_, fun s t p why hp hd h => ?_⟩
  · have hr := exec_inv h
    obtain ⟨hparams, harg, hmatrix, hstop, hscript, hturns, hreads⟩ := hr.frame
    obtain ⟨hpend, hbusy, hdone, hillop⟩ := hr.completed
    refine ⟨hparams, harg, hmatrix, hstop, hscript, hturns, hreads, hpend, hbusy, hdone, hillop, hr.invarg_eq,
      fun hi => hr.score_eq (hi false), ?_, ?_, hr.result_isSome, ?_⟩
    · rintro ⟨a, rfl⟩
      exact hr.result_eq_of_eval
    · exact hr.faults_cases.imp_right fun ⟨hc, hres, hscore, _⟩ => ⟨hc, hres, hscore⟩
    · rintro hf ⟨a, rfl⟩
      exact hr.score_isSome hf
  · cases (perform_of_illegal hp hd).symm.trans h
    rfl

/-- The unwritten operand is the test after ABSENT's, on every command that reads ARG (R56). -/
theorem exec_of_unwritten {i : Instr} {s : State} (ho : operand s = none) (ha : i.absentBit = false)
    (hi : i ≠ .eval false) : exec i s = .next (raiseFault .pfUnwrittenArg s) := by
  cases i with
  | symsize a =>
    obtain rfl : a = false := ha
    exact exec_symsize_unwritten ho
  | totalcw a | bitlen a | fmtenc a | verenc a =>
    obtain rfl : a = false := ha
    exact congrArg Host.Outcome.next (runOnArg_unwritten ho)
  | eval a =>
    obtain rfl : a = false := ha
    exact absurd rfl hi

/-- Settles O33: the fields of `raiseFault` on an unwritten operand. -/
theorem unwrittenOperandFaults : Obligations.UnwrittenOperandFaults := by
  unfold Obligations.UnwrittenOperandFaults
  exact fun s i ho ha hi => exec_of_unwritten ho ha hi

theorem operand_of_pend {s : State} {p : Pend} (hp : s.pend = some p) : operand s = p.arg := by
  simp [operand, hp]

/-- Settles O35: the CORE's turn is the performance of the latched word, and each clause is the case of its decoding or
of its command that meets the clause's test. -/
theorem faultPriority : Obligations.FaultPriority := by
  unfold Obligations.FaultPriority
  refine ⟨fun s p ts ht hb hp => ?_, fun s t i h => ?_, fun s hb => ?_⟩
  · intro fault
    have ho : operand { s with turns := ts } = p.arg := operand_of_pend hp
    refine ⟨fun why hd => (step_core_busy ht hb).trans (perform_of_illegal hp hd), fun i hd => ?_⟩
    have hstep := step_core_of_command ht hb hp hd
    refine ⟨fun ha hi => ?_, fun ha hi hn => ?_, fun v hv hi hr => ?_, fun hi => ?_, fun v hv hi hr => ?_,
      fun v hv hi hr => ?_, fun v hv hi hr => ?_, fun hi hm => ?_⟩
    · exact hstep.trans (exec_of_absentBit ha hi _)
    · exact hstep.trans (exec_of_unwritten (ho.trans hn) ha hi)
    all_goals subst hi
    · exact hstep.trans (exec_symsize_of_not_versionOk (ho.trans hv) (versionOk_of_not_mem hr))
    · exact hstep.trans (exec_symsize_absent _)
    · have hrule := totalcwRule_of_not_versionOk (versionOk_of_not_mem hr)
      exact hstep.trans (congrArg Host.Outcome.next (runOnArg_error (ho.trans hv) hrule))
    · exact hstep.trans (congrArg Host.Outcome.next (runOnArg_error (ho.trans hv) (fmtencRule_of_le hr)))
    · exact hstep.trans (congrArg Host.Outcome.next (runOnArg_error (ho.trans hv) (verencRule_of_not_mem hr)))
    · exact hstep.trans (exec_eval_no_modules hm)
  · have hr := exec_inv h
    obtain ⟨_, _, _, hillop⟩ := hr.completed
    exact ⟨hillop, hr.faults_cases.imp_right fun ⟨hc, _, _, hinvarg⟩ => ⟨hc, hinvarg⟩⟩
  · exact ⟨readResultReg_busy hb _, readResultReg_busy hb _, readResultReg_busy hb _⟩

end Sys2Proof.Machine
end

