-- ==== Sys2Proof/Proofs/StepEffects.lean ====
section
/-! SUPPORT. What a step can change in each register, from what a HOST operation and `perform` can do: who writes RESULT
and SCORE (R24, R25), ARG (R20), MATRIX (R29, R41) and the flags of STATUS (R22). -/

namespace Sys2Proof.Machine

/-! ### A HOST operation -/

section
variable {r : Slot} {k : AccessKind} {s t : State}

theorem AccessResult.frame (h : AccessResult r k s t) :
    t.params = s.params ∧ t.result = s.result ∧ t.score = s.score ∧ t.turns = s.turns ∧ t.matrix = s.matrix := by
  cases h with
  | same | logged | fault | arg | start => simp

/-- The HOST took a write of `v` to `BASE + off` from `s` to `t`. -/
abbrev TookWrite (s t : State) (off : Nat) (v : Word) : Prop := s.script = wr s.params.base off v :: t.script

/-- The HOST's CTRL write of `w` as R55 has it: taken with BUSY = 0, it latches `w` and ARG and sets BUSY alone. -/
abbrev StartedBy (s t : State) (w : Word) : Prop :=
  s.status.busy = false ∧ t.status = statusStarted ∧ TookWrite s t 0x04 w ∧ t.pend = some (latch w s.arg)

theorem HostResult.frame (h : HostResult s t) :
    t.params = s.params ∧ t.result = s.result ∧ t.score = s.score ∧ t.turns = s.turns := by
  cases h with
  | access r k rest t hs ht =>
    obtain ⟨hparams, hresult, hscore, hturns, _⟩ := ht.frame
    exact ⟨hparams, hresult, hscore, hturns⟩
  | poll | present => simp

/-- Of the HOST's operations only the CTRL write touches STATUS or PEND. -/
theorem HostResult.status_pend_cases (h : HostResult s t) :
    (t.status = s.status ∧ t.pend = s.pend) ∨ ∃ w, StartedBy s t w := by
  cases h with
  | access r k rest t hs ht =>
    cases ht with
    | start w hr hk hb =>
      subst hr hk
      exact .inr ⟨w, hb, rfl, hs, rfl⟩
    | same | logged | fault | arg => exact .inl ⟨rfl, rfl⟩
  | poll | present => exact .inl ⟨rfl, rfl⟩

/-- Of the HOST's operations only the ARG write touches ARG, and only while BUSY = 0. -/
theorem HostResult.arg_cases (h : HostResult s t) :
    t.arg = s.arg
      ∨ s.status.busy = false ∧ t.status = s.status ∧ ∃ v, TookWrite s t 0x00 v ∧ t.arg = some v := by
  cases h with
  | access r k rest t hs ht =>
    cases ht with
    | arg v hr hk hb =>
      subst hr hk
      exact .inr ⟨hb, rfl, v, hs, rfl⟩
    | same | logged | fault | start => exact .inl rfl
  | poll | present => exact .inl rfl

/-- Of the HOST's operations only `present` touches the port, and only while BUSY = 0 (R41). -/
theorem HostResult.matrix_cases (h : HostResult s t) :
    t.matrix = s.matrix ∨ s.status.busy = false ∧ s.script = .present t.matrix :: t.script := by
  cases h with
  | access r k rest t hs ht =>
    obtain ⟨_, _, _, _, hmatrix⟩ := ht.frame
    exact .inl hmatrix
  | poll => exact .inl rfl
  | present m rest hs hb => exact .inr ⟨hb, hs⟩

end

/-! ### `perform` -/

section
variable {s t : State}

/-- `perform` leaves the parameters, the port and the HOST as they are, whatever the word. -/
theorem perform_frame (h : perform s = .next t) :
    t.params = s.params ∧ t.matrix = s.matrix ∧ t.hostStopped = s.hostStopped ∧ t.script = s.script
      ∧ t.reads = s.reads := by
  obtain ⟨p, _, ⟨_, _, rfl⟩ | ⟨i, _, hexec⟩⟩ := perform_cases h
  · simp
  · obtain ⟨hparams, _, hmatrix, hstop, hscript, _, hreads⟩ := hexec.frame
    exact ⟨hparams, hmatrix, hstop, hscript, hreads⟩

/-- `perform` completes: BUSY = 0, DONE = 1 and PEND empty (R56). -/
theorem perform_completed (h : perform s = .next t) :
    t.pend = none ∧ t.status.busy = false ∧ t.status.done = true := by
  obtain ⟨p, _, ⟨_, _, rfl⟩ | ⟨i, _, hexec⟩⟩ := perform_cases h
  · simp
  · obtain ⟨hpend, hbusy, hdone, _⟩ := hexec.completed
    exact ⟨hpend, hbusy, hdone⟩

theorem perform_result_ne (h : perform s = .next t) (hne : t.result ≠ s.result) :
    ∃ p i, s.pend = some p ∧ decode (pendWord p) = .command i ∧ ∀ a, i ≠ .eval a := by
  obtain ⟨p, hp, ⟨_, _, rfl⟩ | ⟨i, hd, hexec⟩⟩ := perform_cases h
  · exact absurd (performIllegal_result s) hne
  · refine ⟨p, i, hp, hd, ?_⟩
    rintro a rfl
    exact hne hexec.result_eq_of_eval

theorem perform_score_ne (h : perform s = .next t) (hne : t.score ≠ s.score) :
    ∃ p, s.pend = some p ∧ decode (pendWord p) = .command (.eval false) := by
  obtain ⟨p, hp, ⟨_, _, rfl⟩ | ⟨i, hd, hexec⟩⟩ := perform_cases h
  · exact absurd (performIllegal_score s) hne
  · obtain rfl : i = .eval false := by_contra fun hi => hne (hexec.score_eq hi)
    exact ⟨p, hp, hd⟩

end

/-! ### A step -/

/-- Settles O51: a HOST operation writes neither register, and `perform` only by the commands named. -/
theorem resultAndScoreWriters : Obligations.ResultAndScoreWriters := by
  unfold Obligations.ResultAndScoreWriters
  intro s t h hreset
  cases step_cases h with
  | reset hr => exact absurd hr hreset
  | idle => exact ⟨fun hne => absurd rfl hne, fun hne => absurd rfl hne⟩
  | core _ _ hb ht => exact ⟨fun hne => ⟨hb, perform_result_ne (s := popTurn s) ht hne⟩,
      fun hne => ⟨hb, perform_score_ne (s := popTurn s) ht hne⟩⟩
  | host _ _ _ ht =>
    obtain ⟨_, hresult, hscore, _⟩ := ht.frame
    exact ⟨fun hne => absurd hresult hne, fun hne => absurd hscore hne⟩

/-- Settles O52: `perform` keeps ARG, and the one HOST operation that does not is the ARG write. -/
theorem argWriters : Obligations.ArgWriters := by
  unfold Obligations.ArgWriters
  intro s t h hne
  cases step_cases h with
  | reset hr => exact .inl ⟨hr, rfl⟩
  | idle => exact absurd rfl hne
  | core _ _ _ ht => exact absurd (perform_arg_eq ht) hne
  | host _ hr hh ht =>
    obtain ⟨hb, hstatus, hwrite⟩ := ht.arg_cases.resolve_left hne
    exact .inr ⟨hr, hb, hh, hstatus, hwrite⟩

/-- The parameters are fixed, and the port changes only by the HOST's presenting another while BUSY = 0. -/
theorem step_params_matrix {s t : State} (h : step s = .next t) :
    t.params = s.params
      ∧ (t.matrix ≠ s.matrix →
          s.status.busy = false ∧ s.hostStopped = false ∧ s.script = .present t.matrix :: t.script) := by
  cases step_cases h with
  | reset | idle => exact ⟨rfl, fun hne => absurd rfl hne⟩
  | core _ _ _ ht =>
    obtain ⟨hparams, hmatrix, _⟩ := perform_frame ht
    exact ⟨hparams, fun hne => absurd hmatrix hne⟩
  | host _ _ hh ht =>
    obtain ⟨hparams, _⟩ := ht.frame
    refine ⟨hparams, fun hne => ?_⟩
    obtain ⟨hb, hs⟩ := ht.matrix_cases.resolve_left hne
    exact ⟨hb, hh, hs⟩

section
variable {s : State} {m : PortMatrix} {rest : List HostMove} {ts : List Turn} (ht : s.turns = .host :: ts)
  (hs : s.script = .present m :: rest)
include ht hs

theorem step_present_idle (hh : s.hostStopped = false) (hb : s.status.busy = false) :
    step s = .next { s with turns := ts, script := rest, matrix := m } := by
  simp [step, ht, takeTurn, hostEnabled, moveEnabled, hostMove, hs, hh, hb]

theorem step_present_busy (hb : s.status.busy = true) : step s = .next { s with turns := ts } := by
  simp [step, ht, takeTurn, hostEnabled, moveEnabled, hs, hb]

end

/-- Settles O53: what a step can do to the port, and the HOST's turn at `present` for either value of BUSY. -/
theorem matrixChangesOnlyWhenIdle : Obligations.MatrixChangesOnlyWhenIdle := by
  unfold Obligations.MatrixChangesOnlyWhenIdle
  refine ⟨fun s t h => ?_, fun s m rest ts ht hh hs => ⟨step_present_idle ht hs hh, step_present_busy ht hs⟩⟩
  obtain ⟨hparams, hmatrix⟩ := step_params_matrix h
  refine ⟨hparams, fun hne => ?_⟩
  obtain ⟨hb, hh, hs⟩ := hmatrix hne
  exact ⟨hb, hh, _, hs, rfl⟩

/-! ### The HOST that has stopped -/

theorem AccessResult.eq_hostFault_of_faults_ne {r : Slot} {k : AccessKind} {s t : State} (h : AccessResult r k s t)
    (hne : t.faults ≠ s.faults) : ∃ c, t = hostFault c s := by
  cases h with
  | fault c => exact ⟨c, rfl⟩
  | same | logged | arg | start => exact absurd (by simp) hne

/-- Settles O41: of what an access can do only a fault touches FAULTS; and of what a step can do the HOST's operation is
excluded once the HOST has stopped. -/
theorem stoppedHostTakesNoStep : Obligations.StoppedHostTakesNoStep := by
  unfold Obligations.StoppedHostTakesNoStep
  refine ⟨fun s r k hne => ?_, fun s t hh h => ?_, fun s _ hb ht => step_unscheduled_busy ht hb⟩
  · obtain ⟨c, hc⟩ := (accessSlot_cases r k s).eq_hostFault_of_faults_ne hne
    rw [hc]
    exact ⟨c, rfl, goodEnd_eq_false_of_faults (by simp)⟩
  · cases step_cases h with
    | reset hr => exact ⟨hh, rfl, rfl, rfl, .inr hr, fun _ => .inr hr⟩
    | idle => exact ⟨hh, rfl, rfl, rfl, .inl rfl, fun _ => .inl rfl⟩
    | core _ _ hb ht =>
      obtain ⟨_, hmatrix, hstop, hscript, hreads⟩ := perform_frame ht
      refine ⟨hstop.trans hh, hscript, hreads, hmatrix, .inl (perform_arg_eq (s := popTurn s) ht),
        fun hidle => ?_⟩
      exact absurd (hb.symm.trans hidle) (by decide)
    | host _ _ hrun => exact absurd (hh.symm.trans hrun) (by decide)

end Sys2Proof.Machine
end

