-- ==== Sys2Proof/Proofs/MachineInvariant.lean ====
section
/-! SUPPORT. The invariant on STATUS, PEND and RESULT (R22, R24, R26): it holds at power-on and every step keeps it; the
flags INVARG and ILLOP, and the latched command, along a run. -/

namespace Sys2Proof.Machine

/-- Settles O55: at power-on every flag is 0 and PEND, RESULT and SCORE are empty. -/
theorem invariantsHoldAtPowerOn : Obligations.InvariantsHoldAtPowerOn := by
  unfold Obligations.InvariantsHoldAtPowerOn
  intro p m script turns
  simp [MachineInv, StatusLegal, PendLegal, ResultLegal, ScoreLegal]

/-! ### RESULT -/

/-- The rule of every integer command but SYMSIZE gives at most 18 bits (R24). -/
theorem totalcwRule_ok_lt {v r : Nat} (h : totalcwRule v = .ok r) : r < 2 ^ 18 := by
  cases hv : versionOk v with
  | true =>
    cases (totalcwRule_of_versionOk hv).symm.trans h
    obtain ⟨hlo, hhi⟩ : 1 ≤ v ∧ v ≤ 40 := of_decide_eq_true hv
    exact (cwEntry_lt v (Finset.mem_Icc.2 ⟨hlo, hhi⟩)).trans (by decide)
  | false => cases (totalcwRule_of_not_versionOk hv).symm.trans h

theorem bitlenRule_ok_lt {v : Word} {r : Nat} (h : bitlenRule v.toNat = .ok r) : r < 2 ^ 18 := by
  cases h
  have h32 : bitLength v.toNat ≤ 32 := (bitLength_le_iff _ _).2 v.isLt
  omega

theorem fmtencRule_ok_lt {v r : Nat} (h : fmtencRule v = .ok r) : r < 2 ^ 18 := by
  rcases lt_or_ge v 32 with hv | hv
  · cases (fmtencRule_of_lt hv).symm.trans h
    exact (formatInfo_lt hv).trans (by decide)
  · cases (fmtencRule_of_le hv).symm.trans h

theorem verencRule_ok_lt {v r : Nat} (h : verencRule v = .ok r) : r < 2 ^ 18 := by
  by_cases hv : 7 ≤ v ∧ v ≤ 40
  · cases (verencRule_of_mem hv.1 hv.2).symm.trans h
    exact versionInfo_lt hv.2
  · cases (verencRule_of_not_mem (by omega)).symm.trans h

theorem zext32_toNat {r : Nat} (h : r < 2 ^ 18) : (zext32 r).toNat = r :=
  (BitVec.toNat_ofNat r 32).trans (Nat.mod_eq_of_lt (h.trans (by decide)))

theorem ExecResult.resultLegal {i : Instr} {s t : State} (h : ExecResult i s t) (hs : ResultLegal s.result) :
    ResultLegal t.result := by
  cases h with
  | fault | score => exact hs
  | size _ _ v _ hv =>
    rintro x ⟨⟩
    omega
  | result v x r _ hr hv =>
    have hlt : r < 2 ^ 18 := by
      rcases hr with ⟨_, h⟩ | ⟨_, h⟩ | ⟨_, h⟩ | ⟨_, h⟩
      exacts [totalcwRule_ok_lt h, bitlenRule_ok_lt h, fmtencRule_ok_lt h, verencRule_ok_lt h]
    rintro y ⟨⟩
    rwa [hv, zext32_toNat hlt]

/-! ### The invariant -/

section
variable {s t : State}

/-- A command that starts from BUSY = 1, so with INVARG = ILLOP = 0, sets at most one of the two. -/
theorem perform_keeps_machineInv (hb : s.status.busy = true) (hs : MachineInv s) (h : perform s = .next t) :
    MachineInv t := by
  obtain ⟨⟨hflags, _⟩, _, hresult⟩ := hs
  obtain ⟨_, hinvarg, hillop⟩ := hflags hb
  obtain ⟨p, _, ⟨_, _, rfl⟩ | ⟨i, _, hexec⟩⟩ := perform_cases h
  · exact ⟨⟨by simp, by simp [hinvarg]⟩, by simp [PendLegal], hresult⟩
  · obtain ⟨hpend, hbusy, _, hkept⟩ := hexec.completed
    exact ⟨⟨by simp [hbusy], by simp [hkept, hillop]⟩, by simp [PendLegal, hpend, hbusy], hexec.resultLegal hresult⟩

theorem HostResult.keeps_machineInv (hs : MachineInv s) (h : HostResult s t) : MachineInv t := by
  obtain ⟨hstatus, hpend, hresult⟩ := hs
  obtain ⟨_, hkept, _⟩ := h.frame
  rcases h.status_pend_cases with ⟨hst, hp⟩ | ⟨w, _, hst, _, hp⟩
  · exact ⟨hst ▸ hstatus, by rwa [PendLegal, hst, hp], hkept ▸ hresult⟩
  · exact ⟨by simp [hst, StatusLegal], by simp [PendLegal, hst, hp], hkept ▸ hresult⟩

theorem step_keeps_machineInv (hs : MachineInv s) (h : step s = .next t) : MachineInv t := by
  cases step_cases h with
  | reset => simp [MachineInv, StatusLegal, PendLegal, ResultLegal]
  | idle => exact hs
  | core _ _ hb ht => exact perform_keeps_machineInv (s := popTurn s) hb hs ht
  | host _ _ _ ht => exact ht.keeps_machineInv (s := popTurn s) hs

end

/-- Settles O56: `perform` starts with both error flags 0 and completes, the HOST's CTRL write sets BUSY with PEND, and
no other operation touches the three registers. -/
theorem stepKeepsTheInvariant : Obligations.StepKeepsTheInvariant := by
  unfold Obligations.StepKeepsTheInvariant
  exact fun _ _ => step_keeps_machineInv

/-! ### The error flags -/

/-- Settles O54: with BUSY = 1 both flags are 0 already, so `perform` cannot clear one; of the HOST's operations only
the CTRL write touches STATUS. -/
theorem errorFlagsStayUntilTheNextStart : Obligations.ErrorFlagsStayUntilTheNextStart := by
  unfold Obligations.ErrorFlagsStayUntilTheNextStart
  intro s t hinv h hcleared
  have hkept : t.status ≠ s.status := by
    intro heq
    simp [heq] at hcleared
  cases step_cases h with
  | reset hr => exact .inl ⟨hr, rfl⟩
  | idle => exact absurd rfl hkept
  | core _ _ hb =>
    obtain ⟨⟨hflags, _⟩, _⟩ := hinv
    simp [hflags hb] at hcleared
  | host _ hr _ ht =>
    obtain ⟨w, hb, hst, hs, hp⟩ := ht.status_pend_cases.resolve_left fun ⟨hst, _⟩ => hkept hst
    exact .inr ⟨hr, hb, hst, w, hs, hp⟩

/-! ### The latched command -/

section
variable {s t : State} {p : Pend}

theorem perform_of_latched (hp : s.pend = some p) : ∃ t, perform s = .next t := by
  cases hd : decode (pendWord p) with
  | illegal why => exact ⟨_, perform_of_illegal hp hd⟩
  | command i =>
    obtain ⟨t, ht, _⟩ := exec_cases i s
    exact ⟨t, (perform_of_command hp hd).trans ht⟩

/-- A step always has a next state while a command is latched. -/
theorem step_of_latched (hb : s.status.busy = true) (hp : s.pend = some p) : ∃ t, step s = .next t := by
  match ht : s.turns with
  | [] => exact step_unscheduled_busy ht hb ▸ perform_of_latched hp
  | .core :: ts => exact step_core_busy ht hb ▸ perform_of_latched hp
  | .reset :: ts => exact ⟨_, step_reset ht⟩
  | .host :: ts =>
    have hstep : step s = takeTurn .host { s with turns := ts } := by simp [step, ht]
    rw [hstep, takeTurn]
    split <;> exact ⟨_, rfl⟩

/-- While BUSY = 1, a step that is no reset performs the latched command or leaves it latched. -/
theorem step_performs_or_keeps (hb : s.status.busy = true) (hr : s.turns.head? ≠ some .reset)
    (h : step s = .next t) :
    (t.pend = none ∧ t.status.busy = false ∧ t.status.done = true)
      ∨ (t.turns = s.turns.tail ∧ t.status = s.status ∧ t.pend = s.pend) := by
  cases step_cases h with
  | reset hreset => exact absurd hreset hr
  | idle => exact .inr ⟨rfl, rfl, rfl⟩
  | core _ _ _ ht => exact .inl (perform_completed ht)
  | host _ _ _ ht =>
    obtain ⟨hst, hp⟩ := ht.status_pend_cases.resolve_right fun ⟨_, hidle, _⟩ => by simp [hb] at hidle
    obtain ⟨_, _, _, hturns⟩ := ht.frame
    exact .inr ⟨hturns, hst, hp⟩

theorem run_succ_of_step {u : State} (h : step s = .next u) (k : Nat) : core.run (k + 1) s = core.run k u := by
  have hcore : core.step s = .next u := h
  simp [Host.Core.run, hcore]

/-- The CORE acts at its own turn or, at the latest, when the turns are used up. -/
theorem run_performs_latched {ts : List Turn} (ht : s.turns = ts) (hreset : Turn.reset ∉ ts)
    (hb : s.status.busy = true) (hp : s.pend = some p) :
    ∃ (k : Nat) (t : State), k ≤ ts.length + 1 ∧ core.run k s = .next t ∧ t.status.busy = false
      ∧ t.status.done = true ∧ t.pend = none := by
  induction ts generalizing s with
  | nil =>
    obtain ⟨t, hperf⟩ := perform_of_latched hp
    obtain ⟨hpend, hbusy, hdone⟩ := perform_completed hperf
    exact ⟨1, t, le_rfl, run_succ_of_step ((step_unscheduled_busy ht hb).trans hperf) 0, hbusy, hdone, hpend⟩
  | cons u ts ih =>
    obtain ⟨v, hstep⟩ := step_of_latched hb hp
    have hhead : s.turns.head? ≠ some .reset := by
      simpa [ht] using (List.ne_of_not_mem_cons hreset).symm
    rcases step_performs_or_keeps hb hhead hstep with ⟨hpend, hbusy, hdone⟩ | ⟨hturns, hst, hpend⟩
    · exact ⟨1, v, by simp, run_succ_of_step hstep 0, hbusy, hdone, hpend⟩
    · have hreset' := List.not_mem_of_not_mem_cons hreset
      obtain ⟨k, t, hk, hrun, hend⟩ := ih (by simp [hturns, ht]) hreset' (hst ▸ hb) (hpend ▸ hp)
      exact ⟨k + 1, t, by simpa using hk, (run_succ_of_step hstep k).trans hrun, hend⟩

end

/-- Settles O58: with BUSY = 1 the invariant gives a latched command, which waits for the CORE through every turn that
is no reset. -/
theorem latchedCommandIsPerformed : Obligations.LatchedCommandIsPerformed := by
  unfold Obligations.LatchedCommandIsPerformed
  intro s hinv hb hreset
  obtain ⟨_, hpend, _⟩ := hinv
  obtain ⟨p, hp⟩ := Option.isSome_iff_exists.1 (hpend.trans hb)
  exact run_performs_latched rfl hreset hb hp

end Sys2Proof.Machine
end

