-- ==== Sys2Proof/Proofs/DivremLaws.lean ====
section
/-! SUPPORT. DIVREM as division of GF(2) polynomials (R66, R67): its iterations, linearity, the unique remainder, and
the distances of the two codes it makes (R69, R70). -/

namespace Sys2Proof.Machine

section
variable {g : Nat}

/-! ### Iterations -/

/-- Each iteration takes at least one bit off the working value, so they are no more than its bits down to `g`'s. -/
theorem divremCount_le (hg : 0 < g) (fuel w : Nat) : divremCount g fuel w ≤ bitLength w + 1 - bitLength g := by
  induction fuel generalizing w with
  | zero => exact Nat.zero_le _
  | succ fuel ih =>
    rw [divremCount]
    split
    case isTrue hlong =>
      have hstep := bitLength_divremStep_lt hg hlong
      have hrest := ih (divremStep w g)
      omega
    case isFalse => exact Nat.zero_le _

/-- Settles O12: an iteration cancels the top bit, so the iterations are bounded by the bits above the generator's
degree, and the loop ends below it. -/
theorem divremTerminatesWithAShortRemainder : Obligations.DivremTerminatesWithAShortRemainder := by
  unfold Obligations.DivremTerminatesWithAShortRemainder
  intro d g hg
  refine ⟨fun w => bitLength_divremStep_lt hg, divremCount_le hg _ d, ?_⟩
  rw [← bitLength_le_iff]
  exact Nat.le_sub_one_of_lt (bitLength_divrem_lt hg d)

/-! ### Linearity -/

theorem divrem_of_bitLength_eq (hg : 0 < g) {d k : Nat} (h : bitLength d = bitLength g + k) :
    divrem d g = divrem (d ^^^ (g <<< k)) g := by
  rw [divrem_of_long hg (by omega), divremStep, h, Nat.add_sub_cancel_left]

theorem divremStep_xor_of_lt {d x : Nat} (h : bitLength x < bitLength d) :
    divremStep (d ^^^ x) g = divremStep d g ^^^ x := by
  rw [divremStep, divremStep, bitLength_xor_of_lt h]
  ac_rfl

/-- A shifted generator that holds the top bit is cancelled at once. -/
theorem divrem_xor_shiftLeft_of_lt (hg : 0 < g) {k d : Nat} (h : bitLength d < bitLength g + k) :
    divrem (d ^^^ (g <<< k)) g = divrem d g := by
  have hgk : bitLength (g <<< k) = bitLength g + k := bitLength_shiftLeft hg.ne' k
  have htop : bitLength (d ^^^ (g <<< k)) = bitLength g + k := by
    rw [Nat.xor_comm, bitLength_xor_of_lt (hgk ▸ h), hgk]
  rw [divrem_of_bitLength_eq hg htop, Nat.xor_xor_cancel_right]

/-- A shifted generator is nothing to the remainder: where it does not hold the top bit it is carried along the loop
until it does. -/
theorem divrem_xor_shiftLeft (hg : 0 < g) (k d : Nat) : divrem (d ^^^ (g <<< k)) g = divrem d g := by
  induction d using divrem_induction hg with
  | short d h => exact divrem_xor_shiftLeft_of_lt hg (by omega)
  | long d h ih =>
    rcases Nat.lt_trichotomy (bitLength d) (bitLength g + k) with hlt | heq | hgt
    · exact divrem_xor_shiftLeft_of_lt hg hlt
    · exact (divrem_of_bitLength_eq hg heq).symm
    · rw [← bitLength_shiftLeft hg.ne' k] at hgt
      rw [divrem_of_long hg h, divrem_of_long hg (h.trans (bitLength_xor_of_lt hgt).ge), divremStep_xor_of_lt hgt, ih]

/-- One iteration on the first value is a shifted generator to the whole. -/
theorem divrem_xor (hg : 0 < g) (a b : Nat) : divrem (a ^^^ b) g = divrem a g ^^^ divrem b g := by
  induction a using divrem_induction hg with
  | short a h => rw [Nat.xor_comm a b, divrem_xor_of_short hg h, divrem_of_short h, Nat.xor_comm]
  | long a h ih =>
    have hstep : divremStep a g ^^^ b = (a ^^^ b) ^^^ (g <<< (bitLength a - bitLength g)) := by
      rw [divremStep]
      ac_rfl
    rw [divrem_of_long hg h, ← ih, hstep, divrem_xor_shiftLeft hg]

/-- Settles O13, by induction along the loop on the first value. -/
theorem divremIsLinear : Obligations.DivremIsLinear := by
  unfold Obligations.DivremIsLinear
  exact fun a b g hg => divrem_xor hg a b

/-! ### The unique remainder -/

theorem clmulLoop_zero (fuel : Nat) : clmulLoop g fuel 0 = 0 := by
  induction fuel with
  | zero => rfl
  | succ fuel ih => simp [clmulLoop, ih]

theorem two_mul_xor (a b : Nat) : 2 * (a ^^^ b) = 2 * a ^^^ 2 * b := by
  have hshift : ∀ n, 2 * n = n <<< 1 := fun n => by rw [Nat.shiftLeft_eq]; omega
  rw [hshift, hshift, hshift, Nat.shiftLeft_xor_distrib]

theorem clmulLoop_xor (fuel a b : Nat) :
    clmulLoop g fuel (a ^^^ b) = clmulLoop g fuel a ^^^ clmulLoop g fuel b := by
  induction fuel generalizing a b with
  | zero => exact (Nat.xor_self 0).symm
  | succ fuel ih =>
    have hlow : (if (a ^^^ b) % 2 = 1 then g else 0)
        = (if a % 2 = 1 then g else 0) ^^^ (if b % 2 = 1 then g else 0) := by
      simp only [Nat.xor_mod_two_eq_one]
      by_cases ha : a % 2 = 1 <;> by_cases hb : b % 2 = 1 <;> simp [ha, hb]
    rw [clmulLoop, clmulLoop, clmulLoop, Nat.xor_div_two, ih, two_mul_xor, hlow]
    ac_rfl

theorem clmulLoop_two_pow {fuel k : Nat} (h : k < fuel) : clmulLoop g fuel (2 ^ k) = g <<< k := by
  induction k generalizing fuel with
  | zero =>
    obtain ⟨fuel, rfl⟩ : ∃ n, fuel = n + 1 := ⟨fuel - 1, by omega⟩
    simp [clmulLoop, clmulLoop_zero]
  | succ k ih =>
    obtain ⟨fuel, rfl⟩ : ∃ n, fuel = n + 1 := ⟨fuel - 1, by omega⟩
    have heven : 2 ^ (k + 1) % 2 ≠ 1 := by omega
    have hhalf : 2 ^ (k + 1) / 2 = 2 ^ k := by omega
    rw [clmulLoop, if_neg heven, hhalf, ih (by omega), Nat.zero_xor, Nat.shiftLeft_succ]

/-- Fuel for every bit of the multiplier is enough. -/
theorem clmulLoop_succ_fuel {fuel q : Nat} (h : bitLength q ≤ fuel) :
    clmulLoop g (fuel + 1) q = clmulLoop g fuel q := by
  induction fuel generalizing q with
  | zero =>
    obtain rfl : q = 0 := by
      rw [bitLength_le_iff] at h
      omega
    rw [clmulLoop_zero, clmulLoop_zero]
  | succ fuel ih =>
    have hhalf : bitLength (q / 2) ≤ fuel := by
      rw [bitLength_le_iff] at h ⊢
      omega
    rw [clmulLoop, ih hhalf, clmulLoop]

theorem clmulLoop_eq_clmul {fuel q : Nat} (h : bitLength q ≤ fuel) : clmulLoop g fuel q = clmul q g := by
  induction fuel, h using Nat.le_induction with
  | base => rfl
  | succ fuel h ih => rw [clmulLoop_succ_fuel h, ih]

theorem clmul_xor_two_pow (q k : Nat) : clmul (q ^^^ 2 ^ k) g = clmul q g ^^^ (g <<< k) := by
  have hpow : bitLength (2 ^ k) ≤ k + 1 := (bitLength_le_iff _ _).2 (Nat.pow_lt_pow_succ Nat.one_lt_two)
  have hq : bitLength q ≤ max (bitLength q) (k + 1) := le_max_left _ _
  have hk : k + 1 ≤ max (bitLength q) (k + 1) := le_max_right _ _
  rw [← clmulLoop_eq_clmul (bitLength_xor_le hq (hpow.trans hk)), clmulLoop_xor, clmulLoop_eq_clmul hq,
    clmulLoop_two_pow hk]

/-- Each iteration of DIVREM adds one term to the quotient. -/
theorem exists_quotient (hg : 0 < g) (d : Nat) : ∃ q, d = clmul q g ^^^ divrem d g := by
  induction d using divrem_induction hg with
  | short d h => exact ⟨0, by rw [divrem_of_short h]; exact (Nat.zero_xor d).symm⟩
  | long d h ih =>
    obtain ⟨q, hq⟩ := ih
    refine ⟨q ^^^ 2 ^ (bitLength d - bitLength g), ?_⟩
    rw [clmul_xor_two_pow, divrem_of_long hg h, Nat.xor_right_comm, ← hq, divremStep, Nat.xor_xor_cancel_right]

theorem divrem_two_mul (hg : 0 < g) (d : Nat) : divrem (2 * d) g = divrem (2 * divrem d g) g := by
  induction d using divrem_induction hg with
  | short d h => rw [divrem_of_short h]
  | long d h ih =>
    rw [divrem_of_long hg h, ← ih, divremStep, two_mul_xor, ← Nat.shiftLeft_succ, divrem_xor_shiftLeft hg]

theorem divrem_zero (hg : 0 < g) : divrem 0 g = 0 := divrem_of_short ((lt_bitLength_iff g 0).2 hg)

/-- A multiple of the generator leaves no remainder. -/
theorem divrem_clmulLoop (hg : 0 < g) (fuel q : Nat) : divrem (clmulLoop g fuel q) g = 0 := by
  induction fuel generalizing q with
  | zero => exact divrem_zero hg
  | succ fuel ih =>
    have hself : divrem g g = 0 := by
      have hxor := divrem_xor_shiftLeft hg 0 0
      rwa [Nat.zero_xor, Nat.shiftLeft_zero, divrem_zero hg] at hxor
    have hlow : divrem (if q % 2 = 1 then g else 0) g = 0 := by
      split
      exacts [hself, divrem_zero hg]
    rw [clmulLoop, divrem_xor hg, hlow, divrem_two_mul hg, ih, Nat.mul_zero, divrem_zero hg, Nat.xor_self]

/-- Settles O14: the loop builds a quotient, and by linearity the remainder of any `q (x) g ^ r` with `r` short is
`r`. -/
theorem divremIsTheUniqueRemainder : Obligations.DivremIsTheUniqueRemainder := by
  unfold Obligations.DivremIsTheUniqueRemainder
  refine fun d g hg => ⟨bitLength_divrem_lt hg d, exists_quotient hg d, fun q r hr hd => ?_⟩
  have hmul : divrem (clmul q g) g = 0 := divrem_clmulLoop hg _ q
  rw [hd, divrem_xor_of_short hg hr, hmul, Nat.zero_xor]

/-- Settles O15: the laws of the loop; with the low bits of `d` zero the remainder fills bits `d` does not have. -/
theorem codewordsAreMultiplesOfTheGenerator : Obligations.CodewordsAreMultiplesOfTheGenerator := by
  unfold Obligations.CodewordsAreMultiplesOfTheGenerator
  refine ⟨fun g => divrem_zero, fun d g _ => divrem_of_short, fun d g hg => divrem_xor_divrem hg d, fun d g hg hd => ?_⟩
  have hr : divrem d g < 2 ^ (bitLength g - 1) := by
    rw [← bitLength_le_iff]
    exact Nat.le_sub_one_of_lt (bitLength_divrem_lt hg d)
  obtain ⟨e, he⟩ : ∃ e, d = e <<< (bitLength g - 1) :=
    ⟨d / 2 ^ (bitLength g - 1), by rw [Nat.shiftLeft_eq, Nat.div_mul_cancel (Nat.dvd_of_mod_eq_zero hd)]⟩
  generalize divrem d g = r at hr ⊢
  subst he
  exact ⟨shiftLeft_or_eq_xor hr, (Nat.shiftLeft_add_eq_or_of_lt hr e).symm⟩

end

/-! ### The distances of the two codes -/

/-- The codewords of a generator are closed under XOR. -/
theorem codeword_xor {degree g : Nat} (hbits : bitLength g = degree + 1) (v w : Nat) :
    codeword v degree g ^^^ codeword w degree g = codeword (v ^^^ w) degree g := by
  rw [codeword_eq_xor hbits, codeword_eq_xor hbits, codeword_eq_xor hbits, Nat.shiftLeft_xor_distrib,
    divrem_xor (pos_of_bitLength_eq_succ hbits)]
  ac_rfl

/-- How many of the low `n` bits of `v` are set. -/
def bitWeight (n v : Nat) : Nat := (List.range n).countP fun i => v.testBit i

theorem format_minimum_weight : ∀ v < 32, v ≠ 0 → 7 ≤ bitWeight 15 (codeword v 10 g15.toNat) := by decide

theorem version_minimum_weight : ∀ v < 64, v ≠ 0 → 8 ≤ bitWeight 18 (codeword v 12 g18.toNat) := by decide

/-- Settles O19: the XOR of two codewords is the codeword of the XOR of their data, and G15_MASK cancels, so the least
distance is the least weight of the 31, or 63, codewords of data that is not 0. -/
theorem codesHaveTheirMinimumDistances : Obligations.CodesHaveTheirMinimumDistances := by
  unfold Obligations.CodesHaveTheirMinimumDistances
  refine ⟨fun v w hv hw hne => ?_, fun v w _ hv _ hw hne => ?_⟩
  · have hxor : formatInfo v ^^^ formatInfo w = codeword (v ^^^ w) 10 g15.toNat := by
      rw [← codeword_xor bitLength_g15, formatInfo, formatInfo]
      simp [Nat.xor_assoc]
    rw [hxor]
    exact format_minimum_weight _ (Nat.xor_lt_two_pow (n := 5) hv hw) (by simpa [Nat.xor_eq_zero_iff] using hne)
  · have hxor : versionInfo v ^^^ versionInfo w = codeword (v ^^^ w) 12 g18.toNat := codeword_xor bitLength_g18 v w
    rw [hxor]
    have hlt : v ^^^ w < 2 ^ 6 := Nat.xor_lt_two_pow (by omega) (by omega)
    exact version_minimum_weight _ hlt (by simpa [Nat.xor_eq_zero_iff] using hne)

/-- Settles O9: the three constants, and their lengths from `bitLength_g15` and `bitLength_g18`. -/
theorem romConstantsMeetTheirConstraints : Obligations.RomConstantsMeetTheirConstraints := by
  unfold Obligations.RomConstantsMeetTheirConstraints
  exact ⟨rfl, rfl, rfl, bitLength_g15, bitLength_g18, g15Mask.isLt⟩

end Sys2Proof.Machine
end

