-- ==== Sys2Proof/Proofs/HostRegisters.lean ====
section
/-! SUPPORT. The HOST's operations one by one: reads and ignored writes of the registers (R22 to R25, R37), the access
that is not admitted (R35), `poll` (R58), and the two reads of one SCORE (R38). -/

namespace Sys2Proof.Machine

/-! ### Reads and ignored writes -/

section
variable {s : State} {r : Slot} {rest : List HostMove} {ts : List Turn}

theorem readResultReg_eq_ok {reg : Option Word} {v : Word} :
    readResultReg s reg = .ok v ↔ s.status.busy = false ∧ reg = some v := by
  cases hb : s.status.busy <;> cases reg <;> simp [readResultReg, hb]

theorem readResultReg_unwritten {reg : Option Word} (hb : s.status.busy = false) (hr : reg = none) :
    readResultReg s reg = .error .hfUnwritten := by
  simp [readResultReg, hb, hr]

/-- The script and the turns are no part of what a read returns. -/
theorem readSlot_withScript (r : Slot) (s : State) :
    readSlot r { s with turns := ts, script := rest } = readSlot r s := by
  cases r <;> rfl

section
variable (ht : s.turns = .host :: ts) (hh : s.hostStopped = false)
include ht hh

theorem step_read_ok {v : Word} (hs : s.script = rd s.params.base (slotOffset r) :: rest) (hv : readSlot r s = .ok v) :
    step s = .next { s with turns := ts, script := rest, reads := s.reads ++ [v] } := by
  rw [step_host_access ht hh hs, accessSlot, readSlot_withScript, hv]
  rfl

theorem step_read_error {c : FaultCode} (hs : s.script = rd s.params.base (slotOffset r) :: rest)
    (hc : readSlot r s = .error c) :
    step s = .next { s with turns := ts, script := rest, faults := s.faults ++ [c], hostStopped := true } := by
  rw [step_host_access ht hh hs, accessSlot, readSlot_withScript, hc]
  rfl

/-- A write to a read-only register is taken and ignored (R37). -/
theorem step_write_ignored {v : Word} (hs : s.script = wr s.params.base (slotOffset r) v :: rest)
    (hr : ∀ u, writeSlot r v u = u) : step s = .next { s with turns := ts, script := rest } :=
  (step_host_access ht hh hs).trans (congrArg Host.Outcome.next (hr _))

end

end

/-- Settles O39: each clause is the HOST's turn at one register, with what that register answers. -/
theorem registerReads : Obligations.RegisterReads := by
  unfold Obligations.RegisterReads
  refine ⟨fun s off v rest ts ht hh hs hoff => ?_, fun s off rest ts ht hh hs => ?_⟩
  · rcases hoff with rfl | rfl | rfl | rfl
    · exact step_write_ignored (r := .status) ht hh hs fun _ => rfl
    · exact step_write_ignored (r := .result) ht hh hs fun _ => rfl
    · exact step_write_ignored (r := .scoreLo) ht hh hs fun _ => rfl
    · exact step_write_ignored (r := .scoreHi) ht hh hs fun _ => rfl
  · intro got fault
    refine ⟨?_, ?_, ?_, ?_, ?_, ?_, ?_⟩
    · rintro rfl
      exact step_read_ok (r := .ctrl) ht hh hs rfl
    · rintro rfl
      exact step_read_ok (r := .status) ht hh hs rfl
    · rintro v rfl hb hv
      exact step_read_ok (r := .result) ht hh hs (readResultReg_eq_ok.2 ⟨hb, hv⟩)
    · rintro rfl hb hv
      exact step_read_error (r := .result) ht hh hs (readResultReg_unwritten hb hv)
    · rintro b rfl hb hv
      exact step_read_ok (r := .scoreLo) ht hh hs (readResultReg_eq_ok.2 ⟨hb, by rw [hv]; rfl⟩)
    · rintro b rfl hb hv
      exact step_read_ok (r := .scoreHi) ht hh hs (readResultReg_eq_ok.2 ⟨hb, by rw [hv]; rfl⟩)
    · rintro (rfl | rfl) hb hv
      · exact step_read_error (r := .scoreLo) ht hh hs (readResultReg_unwritten hb (by rw [hv]; rfl))
      · exact step_read_error (r := .scoreHi) ht hh hs (readResultReg_unwritten hb (by rw [hv]; rfl))

/-- Settles O44: the word is looked at bit by bit for each of the sixteen values of the flags. -/
theorem statusWordLayout : Obligations.StatusWordLayout := by
  unfold Obligations.StatusWordLayout
  rintro ⟨busy, done, invarg, illop⟩
  revert busy done invarg illop
  decide

/-! ### Admission and `poll` -/

theorem admitted_iff (base : Nat) (a : Access) :
    admitted base a = true ↔
      a.width = .word ∧ a.addr % 4 = 0 ∧ base ≤ a.addr ∧ a.addr - base ≤ 0x14 ∧ a.fromOwner = true := by
  simp only [admitted, Bool.and_eq_true, decide_eq_true_eq]
  constructor
  · rintro ⟨⟨⟨hw, hal⟩, hlo, hhi⟩, ho⟩
    exact ⟨hw, hal, hlo, by omega, ho⟩
  · rintro ⟨hw, hal, hlo, hhi, ho⟩
    exact ⟨⟨⟨hw, hal⟩, hlo, by omega⟩, ho⟩

section
variable {s : State}

/-- The HOST's turn passes when the HOST has no step. -/
theorem step_host_disabled {ts : List Turn} (ht : s.turns = .host :: ts)
    (he : hostEnabled { s with turns := ts } = false) : step s = .next { s with turns := ts } := by
  simp [step, ht, takeTurn, he]

theorem step_host_enabled {ts : List Turn} (ht : s.turns = .host :: ts)
    (he : hostEnabled { s with turns := ts } = true) : step s = .next (hostMove { s with turns := ts }) := by
  simp [step, ht, takeTurn, he]

theorem hostEnabled_not_admitted {a : Access} {rest : List HostMove} (hs : s.script = .access a :: rest)
    (ha : admitted s.params.base a = false) : hostEnabled s = false := by
  simp [hostEnabled, moveEnabled, hs, ha]

/-- Settles O42: such a HOST has no step, so its turn passes and, with the CORE idle, nobody has one. -/
theorem nonAdmittedAccessIsStuck : Obligations.NonAdmittedAccessIsStuck := by
  unfold Obligations.NonAdmittedAccessIsStuck
  refine ⟨admitted_iff, fun s a rest hs ha hh => ⟨fun ts ht => ?_, fun ht hb => ?_, fun ht hb => ?_⟩⟩
  · exact step_host_disabled ht (hostEnabled_not_admitted (s := { s with turns := ts }) hs ha)
  · exact step_unscheduled_busy ht hb
  · simp [step, ht, unscheduled, hb, hostEnabled_not_admitted hs ha, hh, hs]

/-- Settles O43: `poll` always has its step, and keeps its place in the script when DONE = 0. -/
theorem pollRepeatsUntilDone : Obligations.PollRepeatsUntilDone := by
  unfold Obligations.PollRepeatsUntilDone
  intro s rest ts ht hh hs
  have hstep := step_host_enabled ht (by simp [hostEnabled, moveEnabled, hs, hh])
  refine ⟨fun hd => ?_, fun hd => ?_⟩
  · simp [hstep, hostMove, logRead, hs, hd]
  · simp [hstep, hostMove, logRead, hs, hd]

end

/-! ### The two halves of SCORE -/

theorem slotOffset_injective : Function.Injective slotOffset := fun _ _ h =>
  Option.some.inj ((slotAt_eq_some.2 rfl).symm.trans (slotAt_eq_some.2 h))

theorem scoreHi_append_scoreLo (b : Bits64) : scoreHi b ++ scoreLo b = b := BitVec.extractLsb'_append_extractLsb'

section
variable {s t : State}

/-- The halves may be read in two states, if SCORE is the same in both. -/
theorem score_of_halves {lo hi : Word} (hlo : readSlot .scoreLo s = .ok lo) (hhi : readSlot .scoreHi t = .ok hi)
    (hst : t.score = s.score) : s.score = some (hi ++ lo) := by
  obtain ⟨_, hl⟩ := readResultReg_eq_ok.1 hlo
  obtain ⟨_, hh⟩ := readResultReg_eq_ok.1 hhi
  rw [hst] at hh
  obtain ⟨b, hb, rfl⟩ := Option.map_eq_some_iff.1 hl
  obtain ⟨_, hb', rfl⟩ := Option.map_eq_some_iff.1 hh
  cases hb.symm.trans hb'
  rw [hb, scoreHi_append_scoreLo]

/-- A step that takes the HOST's read off the script and returns a value is that read. -/
theorem readSlot_of_step {r : Slot} {v : Word} (h : step s = .next t)
    (hs : s.script = rd s.params.base (slotOffset r) :: t.script) (hv : t.reads = s.reads ++ [v]) :
    readSlot r s = .ok v := by
  have htaken : t.script ≠ s.script := by simp [hs]
  cases step_cases h with
  | reset | idle => exact absurd rfl htaken
  | core _ _ _ ht =>
    obtain ⟨_, _, _, hscript, _⟩ := perform_frame ht
    exact absurd hscript htaken
  | host _ _ _ ht =>
    cases ht with
    | access r' k rest _ hs' ha =>
      have hhead := hs.symm.trans hs'
      simp only [rd, List.cons.injEq, HostMove.access.injEq, Access.mk.injEq, Nat.add_left_cancel_iff,
        true_and] at hhead
      obtain ⟨⟨hoff, hk⟩, _⟩ := hhead
      obtain rfl := slotOffset_injective hoff
      subst hk
      cases ha with
      | logged v' _ hv' =>
        obtain rfl : v' = v := by simpa using hv
        rwa [readSlot_withScript] at hv'
      | fault => simp at hv
      | same _ hk | arg _ _ hk | start _ _ hk => cases hk
    | poll _ hs' => cases hs.symm.trans hs'
    | present _ _ hs' => cases hs.symm.trans hs'

/-- An idle block stays idle and keeps SCORE unless it is reset or the HOST starts a command. -/
theorem step_idle_keeps_score (h : step s = .next t) (hb : s.status.busy = false) (hr : s.turns.head? ≠ some .reset)
    (hw : ∀ w, ¬ TookWrite s t 0x04 w) : t.status.busy = false ∧ t.score = s.score := by
  cases step_cases h with
  | reset hreset => exact absurd hreset hr
  | idle => exact ⟨hb, rfl⟩
  | core _ _ hbusy => exact absurd (hb.symm.trans hbusy) (by decide)
  | host _ _ _ ht =>
    obtain ⟨_, _, hscore, _⟩ := ht.frame
    obtain ⟨hst, _⟩ := ht.status_pend_cases.resolve_right fun ⟨w, _, _, htook, _⟩ => hw w htook
    exact ⟨hst ▸ hb, hscore⟩

end

/-- Along steps of an idle block that are no reset and take no CTRL write, SCORE stays as it is. -/
theorem run_idle_keeps_score {p : ℕ → State} {k : ℕ} (hstep : ∀ i, i < k → step (p i) = .next (p (i + 1)))
    (hquiet : ∀ i, i < k → (p i).turns.head? ≠ some .reset ∧ ∀ w, ¬ TookWrite (p i) (p (i + 1)) 0x04 w)
    (hb : (p 0).status.busy = false) : (p k).status.busy = false ∧ (p k).score = (p 0).score := by
  induction k with
  | zero => exact ⟨hb, rfl⟩
  | succ k ih =>
    obtain ⟨hbusy, hscore⟩ := ih (fun i hi => hstep i (by omega)) (fun i hi => hquiet i (by omega))
    obtain ⟨hr, hw⟩ := hquiet k (by omega)
    obtain ⟨hbusy', hscore'⟩ := step_idle_keeps_score (hstep k (by omega)) hbusy hr hw
    exact ⟨hbusy', hscore'.trans hscore⟩

/-- Settles O45: the first read shows the block idle, so SCORE is the same at the second, and the two values are its
halves. -/
theorem scoreReadsAreHalvesOfOneScore : Obligations.ScoreReadsAreHalvesOfOneScore := by
  unfold Obligations.ScoreReadsAreHalvesOfOneScore
  refine ⟨fun s lo hi hlo hhi => score_of_halves hlo hhi rfl, ?_⟩
  intro p k first second a b reads _ hstep ⟨hs0, hv0⟩ ⟨hsk, hvk⟩ hquiet
  have hkept := run_idle_keeps_score (fun i hi => hstep i hi.le) hquiet
  refine ⟨?_, ?_⟩
  · rintro rfl rfl
    have hlo := readSlot_of_step (r := .scoreLo) (hstep 0 (Nat.zero_le k)) hs0 hv0
    have hhi := readSlot_of_step (r := .scoreHi) (hstep k le_rfl) hsk hvk
    obtain ⟨_, hscore⟩ := hkept (readResultReg_eq_ok.1 hlo).1
    have hwhole := score_of_halves hlo hhi hscore
    exact ⟨hwhole, hscore.trans hwhole⟩
  · rintro rfl rfl
    have hhi := readSlot_of_step (r := .scoreHi) (hstep 0 (Nat.zero_le k)) hs0 hv0
    have hlo := readSlot_of_step (r := .scoreLo) (hstep k le_rfl) hsk hvk
    obtain ⟨_, hscore⟩ := hkept (readResultReg_eq_ok.1 hhi).1
    have hwhole := score_of_halves hlo hhi hscore.symm
    exact ⟨hscore.symm.trans hwhole, hwhole⟩

end Sys2Proof.Machine
end

