-- ==== Sys2Proof/Proofs/HostDuties.lean ====
section
/-! SUPPORT. Around the block: the HOST's mask selection (R81), the end of a run (R108), the instances of a platform
(R96), and the arithmetic of the symbol sizes (R62). -/

namespace Sys2Proof.Machine

/-! ### Mask selection -/

/-- `m` is the least index of `l` whose score, `s`, is minimal. -/
def FirstMinimum (l : List Bits64) (m : Nat) (s : Bits64) : Prop :=
  l[m]? = some s ∧ (∀ (k : Nat) (x : Bits64), l[k]? = some x → value64 s ≤ value64 x)
    ∧ ∀ (k : Nat) (x : Bits64), k < m → l[k]? = some x → value64 s < value64 x

theorem firstMinimum_singleton (s : Bits64) : FirstMinimum [s] 0 s := by
  refine ⟨rfl, fun k x hx => ?_, fun k x hk => absurd hk (Nat.not_lt_zero k)⟩
  obtain ⟨_, rfl⟩ : k = 0 ∧ s = x := by simpa [List.getElem?_singleton] using hx
  exact le_rfl

/-- An entry of a list with one more at its end is an old entry or the new one. -/
theorem getElem?_snoc {l : List Bits64} {x y : Bits64} {k : Nat} (h : (l ++ [x])[k]? = some y) :
    l[k]? = some y ∨ k = l.length ∧ x = y := by
  rcases Nat.lt_trichotomy k l.length with hk | rfl | hk
  · exact .inl (by rwa [List.getElem?_append_left hk] at h)
  · exact .inr ⟨rfl, by simpa using h⟩
  · rw [List.getElem?_eq_none (by simpa using hk)] at h
    cases h

section
variable {l : List Bits64} {m : Nat} {s x : Bits64} (h : FirstMinimum l m s)
include h

theorem FirstMinimum.lt_length : m < l.length := (List.getElem?_eq_some_iff.1 h.1).1

/-- A score strictly below the least one so far is the first minimum, at the end. -/
theorem FirstMinimum.snoc_less (hx : value64 x < value64 s) : FirstMinimum (l ++ [x]) l.length x := by
  obtain ⟨_, hmin, _⟩ := h
  refine ⟨by simp, fun k y hy => ?_, fun k y hk hy => ?_⟩
  · rcases getElem?_snoc hy with hy | ⟨_, rfl⟩
    exacts [hx.le.trans (hmin k y hy), le_rfl]
  · rw [List.getElem?_append_left hk] at hy
    exact hx.trans_le (hmin k y hy)

/-- Any other score leaves the first minimum where it is. -/
theorem FirstMinimum.snoc_not_less (hx : value64 s ≤ value64 x) : FirstMinimum (l ++ [x]) m s := by
  have hm := h.lt_length
  obtain ⟨hs, hmin, hfirst⟩ := h
  refine ⟨by rwa [List.getElem?_append_left hm], fun k y hy => ?_, fun k y hk hy => ?_⟩
  · rcases getElem?_snoc hy with hy | ⟨_, rfl⟩
    exacts [hmin k y hy, hx]
  · rw [List.getElem?_append_left (hk.trans hm)] at hy
    exact hfirst k y hk hy

end

/-- The loop carries the first minimum of the scores it has seen. -/
theorem selectFrom_firstMinimum (rest : List Bits64) {l : List Bits64} {m : Nat} {s : Bits64}
    (h : FirstMinimum l m s) : ∃ s', FirstMinimum (l ++ rest) (selectFrom l.length (m, s) rest) s' := by
  induction rest generalizing l m s with
  | nil => exact ⟨s, by simpa [selectFrom] using h⟩
  | cons x rest ih =>
    have hlen : l.length + 1 = (l ++ [x]).length := by simp
    rw [List.append_cons, selectFrom, hlen]
    by_cases hx : value64 x < value64 s
    · simpa [scoreLess, hx] using ih (h.snoc_less hx)
    · simpa [scoreLess, hx] using ih (h.snoc_not_less (not_lt.1 hx))

/-- Settles O47: the loop starts at the first score, the first minimum of itself. -/
theorem maskSelectionTakesTheFirstMinimum : Obligations.MaskSelectionTakesTheFirstMinimum := by
  unfold Obligations.MaskSelectionTakesTheFirstMinimum
  intro scores hne
  cases scores with
  | nil => exact absurd rfl hne
  | cons s rest =>
    obtain ⟨s', hs'⟩ := selectFrom_firstMinimum rest (firstMinimum_singleton s)
    exact ⟨_, s', rfl, hs'⟩

/-! ### The end of a run, and several instances -/

theorem hostEnabled_nil {s : State} (hs : s.script = []) : hostEnabled s = false := by
  simp [hostEnabled, hs]

/-- Settles O59: with the script empty the HOST has no step, and with BUSY = 0 nor has the CORE. -/
theorem endedMachineStaysIdle : Obligations.EndedMachineStaysIdle := by
  unfold Obligations.EndedMachineStaysIdle
  intro s hs hb hh
  have hended : ended s = true := by simp [ended, noStepEnabled, hs, hb, hostEnabled_nil hs]
  refine ⟨hended, by simp [goodEnd, hended], fun ht => ?_⟩
  simp [step, ht, unscheduled, hb, hostEnabled_nil hs, hh, hs]

/-- A step of the `i`-th of the instances is the step it takes by itself, put back in its place. -/
theorem stepAt_of_some {p q : Platform} {i : Nat} {s : State} (hs : p.instances[i]? = some s)
    (h : p.stepAt i = .next q) : ∃ t, step s = .next t ∧ q.instances = p.instances.set i t := by
  rw [Platform.stepAt, hs] at h
  cases hstep : step s with
  | next t =>
    simp only [hstep] at h
    cases h
    exact ⟨t, rfl, rfl⟩
  | fault r => simp [hstep] at h
  | refused r => simp [hstep] at h

theorem stepAt_of_none {p q : Platform} {i : Nat} (hs : p.instances[i]? = none) (h : p.stepAt i = .next q) :
    q = p := by
  rw [Platform.stepAt, hs] at h
  cases h
  rfl

/-- Settles O60: the list of instances is set at the one that steps. -/
theorem instancesAreIndependent : Obligations.InstancesAreIndependent := by
  unfold Obligations.InstancesAreIndependent
  intro p q i h
  cases hs : p.instances[i]? with
  | none =>
    obtain rfl := stepAt_of_none hs h
    exact ⟨fun _ _ => rfl, rfl, fun _ hs => by cases hs⟩
  | some s =>
    obtain ⟨t, hstep, hq⟩ := stepAt_of_some hs h
    obtain ⟨hi, _⟩ := List.getElem?_eq_some_iff.1 hs
    rw [hq]
    refine ⟨fun j hj => List.getElem?_set_ne hj.symm, List.length_set, fun u hu => ⟨t, ?_, List.getElem?_set_self hi⟩⟩
    cases hu
    exact hstep

/-! ### Symbol sizes -/

theorem symbolSize_injective : Function.Injective symbolSize := fun v w h => by
  unfold symbolSize at h
  omega

/-- Settles O6: the laws of `4v + 17` on 1..40, by linear arithmetic; the sizes are as many as the versions because the
function is injective. -/
theorem symbolSizeLaws : Obligations.SymbolSizeLaws := by
  unfold Obligations.SymbolSizeLaws
  refine ⟨fun v _ _ => ?_, fun v w _ _ _ => ?_, fun n => ⟨?_, fun ⟨hlo, hhi, hmod⟩ => ?_⟩, ?_⟩
  · refine ⟨rfl, ?_⟩
    simp only [symbolSize]
    omega
  · simp only [symbolSize]
    omega
  · rintro ⟨v, hlo, hhi, rfl⟩
    simp only [symbolSize]
    omega
  · refine ⟨(n - 17) / 4, ?_⟩
    simp only [symbolSize]
    omega
  · rw [Finset.card_image_of_injective _ symbolSize_injective, Nat.card_Icc]

end Sys2Proof.Machine
end

