-- ==== Sys2Proof/Proofs/Rounding.lean ====
section
/-! SUPPORT. `fl64` is rounding to nearest, ties to even (R12), with its error, and `bits64` and `value64` on the values
it gives (R76). -/

namespace Sys2Proof.Machine

/-! ### The nearest integer -/

section
variable {x : Rat}

theorem abs_roundEven_le {k : Int} (h : |x| ≤ k) : |roundEven x| ≤ k := by
  obtain ⟨hlo, hhi⟩ := abs_le.1 h
  have hup := roundEven_mono hhi
  have hdown := roundEven_mono (x := ((-k : Int) : ℚ)) (by push_cast; exact hlo)
  rw [roundEven_intCast] at hup hdown
  exact abs_le.2 ⟨hdown, hup⟩

theorem le_abs_roundEven {k : Int} (h : (k : ℚ) ≤ |x|) : k ≤ |roundEven x| := by
  rcases le_abs.1 h with hx | hx
  · have hround := roundEven_mono hx
    rw [roundEven_intCast] at hround
    exact hround.trans (le_abs_self _)
  · have hround := roundEven_mono (y := ((-k : Int) : ℚ)) (by push_cast; exact le_neg.1 hx)
    rw [roundEven_intCast] at hround
    exact (le_neg.1 hround).trans (neg_le_abs _)

/-- An integer other than the rounded one is at least half away. -/
theorem half_le_of_ne_roundEven {j : Int} (h : j ≠ roundEven x) : 1 / 2 ≤ |(j : ℚ) - x| := by
  have hone : (1 : ℚ) ≤ |(j : ℚ) - roundEven x| := by
    exact_mod_cast Int.one_le_abs (sub_ne_zero.2 h)
  have htri : |(j : ℚ) - roundEven x| ≤ |(j : ℚ) - x| + |x - roundEven x| := abs_sub_le _ _ _
  have hnear := roundEven_near x
  rw [abs_sub_comm] at hnear
  linarith

theorem roundEven_nearest (j : Int) : |(roundEven x : ℚ) - x| ≤ |(j : ℚ) - x| := by
  by_cases h : j = roundEven x
  · rw [h]
  · exact (roundEven_near x).trans (half_le_of_ne_roundEven h)

/-- Half way between two integers, `roundEven` answers the even one. -/
theorem even_roundEven_of_tie (h : 1 / 2 ≤ |(roundEven x : ℚ) - x|) : Even (roundEven x) := by
  have hlo : ((x.floor : Int) : ℚ) ≤ x := Int.floor_le x
  have hhi : x < (x.floor : Int) + 1 := Int.lt_floor_add_one x
  unfold roundEven at h ⊢
  simp only at h ⊢
  split at h
  case isTrue hlt =>
    rw [abs_sub_comm, abs_of_nonneg (by linarith)] at h
    linarith
  case isFalse =>
    split at h
    case isTrue hgt =>
      push_cast at h
      rw [abs_of_nonneg (by linarith)] at h
      linarith
    case isFalse hle hgt =>
      rw [if_neg hle, if_neg hgt]
      split
      case isTrue heven => exact Int.even_iff.2 heven
      case isFalse hodd => exact (Int.not_even_iff_odd.1 fun he => hodd (Int.even_iff.1 he)).add_one

end

/-! ### The rounded value -/

/-- The significand `fl64` rounds `q` to, in units of the last place of `q`. -/
def significand (q : Rat) : Int := roundEven (q / pow2 (ulpExp q))

theorem fl64_eq (q : Rat) : fl64 q = (significand q : ℚ) * pow2 (ulpExp q) := rfl

/-- A distance to `q` in units of its last place. -/
theorem abs_units_sub (q : Rat) (j : Int) :
    |(j : ℚ) * pow2 (ulpExp q) - q| = |(j : ℚ) - q / pow2 (ulpExp q)| * pow2 (ulpExp q) := by
  have hu := pow2_pos (ulpExp q)
  rw [← abs_of_pos hu, ← abs_mul, abs_of_pos hu, sub_mul, div_mul_cancel₀ _ hu.ne']

theorem pow2_ofNat (k : Nat) : pow2 k = 2 ^ k := by rw [pow2_eq_zpow, zpow_natCast]

theorem abs_significand_le (q : Rat) : |significand q| ≤ 2 ^ 53 := by
  have hu := pow2_pos (ulpExp q)
  have hlt := abs_lt_ulp q
  rw [add_comm, pow2_add, ← div_lt_iff₀ hu, ← abs_of_pos hu, ← abs_div] at hlt
  have h53 : pow2 53 = ((2 ^ 53 : Int) : ℚ) := by exact_mod_cast pow2_ofNat 53
  exact abs_roundEven_le (h53 ▸ hlt.le)

theorem le_abs_significand {q : Rat} (h : -1074 < ulpExp q) : 2 ^ 52 ≤ |significand q| := by
  have hu := pow2_pos (ulpExp q)
  have hle := ulp_le_abs h
  rw [add_comm, pow2_add, ← le_div_iff₀ hu, ← abs_of_pos hu, ← abs_div] at hle
  have h52 : pow2 52 = ((2 ^ 52 : Int) : ℚ) := by exact_mod_cast pow2_ofNat 52
  exact le_abs_roundEven (h52 ▸ hle)

/-- `fl64 q` as 53 significant bits, with no smaller exponent than need be: a significand that rounds up to `2^53` is
`2^52` at the next exponent. An even rounding stays even. -/
theorem fl64_canonical (q : Rat) :
    ∃ m e : Int, |m| < 2 ^ 53 ∧ -1074 ≤ e ∧ fl64 q = (m : ℚ) * pow2 e ∧ (|m| < 2 ^ 52 → e = -1074)
      ∧ (Even (significand q) → Even m) := by
  have hge := ulpExp_ge q
  rcases (abs_significand_le q).lt_or_eq with hlt | heq
  · refine ⟨significand q, ulpExp q, hlt, hge, fl64_eq q, fun hsmall => ?_, id⟩
    by_contra hne
    exact absurd (le_abs_significand (lt_of_le_of_ne hge (Ne.symm hne))) (not_le.2 hsmall)
  · obtain ⟨m, hm, habs, heven⟩ : ∃ m : Int, significand q = m * 2 ∧ |m| = 2 ^ 52 ∧ Even m := by
      rcases (abs_eq (by norm_num)).1 heq with h | h
      · exact ⟨2 ^ 52, by rw [h]; norm_num, by norm_num, by decide⟩
      · exact ⟨-2 ^ 52, by rw [h]; norm_num, by norm_num, by decide⟩
    refine ⟨m, ulpExp q + 1, by rw [habs]; norm_num, by omega, ?_, fun hsmall => ?_, fun _ => heven⟩
    · rw [fl64_eq, hm, add_comm, pow2_add, show pow2 1 = 2 from pow2_ofNat 1]
      push_cast
      ring
    · exact absurd habs hsmall.ne

theorem rep53_fl64 (q : Rat) : Rep53 (fl64 q) := by
  obtain ⟨m, e, hm, he, hq, _⟩ := fl64_canonical q
  exact ⟨m, e, hm, he, hq⟩

theorem fl64_nearest_units (q : Rat) (j : Int) : |fl64 q - q| ≤ |(j : ℚ) * pow2 (ulpExp q) - q| := by
  rw [fl64_eq, abs_units_sub, abs_units_sub]
  exact mul_le_mul_of_nonneg_right (roundEven_nearest j) (pow2_pos _).le

/-- A binary64 value is a whole number of units of the last place of `q`, or lies so far below the binade of `q` that
the bottom of the binade is nearer. -/
theorem rep_units_or_farther {r : Rat} (hr : Rep53 r) (q : Rat) :
    (∃ j : Int, r = (j : ℚ) * pow2 (ulpExp q)) ∨ ∃ j : Int, |(j : ℚ) * pow2 (ulpExp q) - q| < |r - q| := by
  obtain ⟨m, e, hm, he, rfl⟩ := hr
  rcases le_or_gt (ulpExp q) e with hf | hf
  · exact .inl ⟨_, rep_units hf⟩
  · right
    obtain ⟨hsmall, hbig⟩ := rep_small hm he hf
    obtain ⟨hr1, hr2⟩ := abs_lt.1 hsmall
    have hbottom : ((2 ^ 52 : Int) : ℚ) * pow2 (ulpExp q) = pow2 (ulpExp q + 52) := by
      rw [add_comm, pow2_add, show pow2 52 = 2 ^ 52 from pow2_ofNat 52]
      norm_cast
    rcases le_or_gt 0 q with hq | hq
    · rw [abs_of_nonneg hq] at hbig
      refine ⟨2 ^ 52, ?_⟩
      rw [hbottom, abs_sub_comm, abs_of_nonneg (by linarith), abs_sub_comm, abs_of_nonneg (by linarith)]
      linarith
    · rw [abs_of_neg hq] at hbig
      refine ⟨-2 ^ 52, ?_⟩
      rw [Int.cast_neg, neg_mul, hbottom, abs_of_nonneg (by linarith), abs_of_nonneg (by linarith)]
      linarith

theorem fl64_nearest {r : Rat} (hr : Rep53 r) (q : Rat) : |fl64 q - q| ≤ |r - q| := by
  rcases rep_units_or_farther hr q with ⟨j, rfl⟩ | ⟨j, hj⟩
  · exact fl64_nearest_units q j
  · exact (fl64_nearest_units q j).trans hj.le

/-- Another binary64 value as near to `q` makes `q` half way between two whole numbers of units. -/
theorem even_significand_of_tie {q r : Rat} (hr : Rep53 r) (hne : r ≠ fl64 q) (htie : |r - q| = |fl64 q - q|) :
    Even (significand q) := by
  have hu := pow2_pos (ulpExp q)
  rcases rep_units_or_farther hr q with ⟨j, rfl⟩ | ⟨j, hj⟩
  · have hj : j ≠ significand q := by
      rintro rfl
      exact hne rfl
    rw [fl64_eq, abs_units_sub, abs_units_sub] at htie
    have hhalf := half_le_of_ne_roundEven hj
    rw [mul_right_cancel₀ hu.ne' htie] at hhalf
    exact even_roundEven_of_tie hhalf
  · exact absurd (fl64_nearest_units q j) (not_le.2 (htie ▸ hj))

theorem fl64_intCast_le {k : Int} (h : |k| ≤ 2 ^ 53) : fl64 (k : ℚ) = k := by
  rcases h.lt_or_eq with hlt | heq
  · exact fl64_intCast hlt
  · refine fl64_of_rep ⟨k / 2, 1, ?_, by norm_num, ?_⟩
    · rcases (abs_eq (by norm_num)).1 heq with rfl | rfl <;> norm_num
    · rw [show pow2 1 = 2 from pow2_ofNat 1]
      rcases (abs_eq (by norm_num)).1 heq with rfl | rfl <;> norm_num

/-- Settles O31: among the whole numbers of units of its last place `q` is rounded to the nearest, a tie to the even
one, and no other binary64 value is nearer. -/
theorem roundingIsNearestTiesToEven : Obligations.RoundingIsNearestTiesToEven := by
  unfold Obligations.RoundingIsNearestTiesToEven
  intro Representable
  have hrep : ∀ {r}, Representable r → Rep53 r := by
    rintro r ⟨m, e, hm, he, rfl⟩
    exact ⟨m, e, hm, he, by rw [pow2_eq_zpow]⟩
  refine ⟨fun q => ?_, absR_eq_abs, fun k => fl64_intCast_le⟩
  obtain ⟨m, e, hm, he, hq, hsub, heven⟩ := fl64_canonical q
  rw [pow2_eq_zpow] at hq
  exact ⟨⟨m, e, hm, he, hq⟩, fun r hr => fl64_nearest (hrep hr) q,
    fun r hr hne htie => ⟨m, e, heven (even_significand_of_tie (hrep hr) hne htie), hm, he, hq, hsub⟩⟩

/-! ### Bounds on a rounded value -/

theorem Rep53.neg {r : Rat} (h : Rep53 r) : Rep53 (-r) := by
  obtain ⟨m, e, hm, he, rfl⟩ := h
  exact ⟨-m, e, by rwa [abs_neg], he, by push_cast; ring⟩

/-- The binary fractions of up to 53 bits that the bounds below are stated with. -/
theorem rep53_dyadic (m : Nat) (k : Nat) (hm : m < 2 ^ 53) (hk : k ≤ 1074) : Rep53 ((m : ℚ) / 2 ^ k) := by
  refine ⟨m, -k, by rw [Nat.abs_cast]; exact_mod_cast hm, by omega, ?_⟩
  rw [pow2_eq_zpow, zpow_neg, zpow_natCast, div_eq_mul_inv]
  norm_cast

theorem abs_fl64_le {q r : Rat} (hr : Rep53 r) (h : |q| ≤ r) : |fl64 q| ≤ r := by
  obtain ⟨hlo, hhi⟩ := abs_le.1 h
  exact abs_le.2 ⟨le_fl64_of_le hr.neg hlo, fl64_le_of_le hr hhi⟩

theorem le_abs_fl64 {q r : Rat} (hr : Rep53 r) (h : r ≤ |q|) : r ≤ |fl64 q| := by
  rcases le_abs.1 h with hq | hq
  · exact (le_fl64_of_le hr hq).trans (le_abs_self _)
  · exact (le_neg.1 (fl64_le_of_le hr.neg (le_neg.1 hq))).trans (neg_le_abs _)

/-- Below `2^k` the last place is at most `2^(k-53)`. -/
theorem ulpExp_le {q : Rat} {k : Int} (hk : -1021 ≤ k) (h : |q| < pow2 k) : ulpExp q ≤ k - 53 := by
  by_contra hgt
  have hle := (ulp_le_abs (q := q) (by omega)).trans_lt h
  rw [pow2_eq_zpow, pow2_eq_zpow, zpow_lt_zpow_iff_right₀ (by norm_num)] at hle
  omega

/-- Rounding moves a value below `2^k` by at most `2^(k-54)`. -/
theorem fl64_error {q : Rat} {k : Int} (hk : -1021 ≤ k) (h : |q| < pow2 k) : |fl64 q - q| ≤ pow2 (k - 54) := by
  have hulp : pow2 (ulpExp q) ≤ pow2 (k - 53) := by
    rw [pow2_eq_zpow, pow2_eq_zpow]
    exact zpow_le_zpow_right₀ (by norm_num) (ulpExp_le hk h)
  have hhalf : pow2 (k - 53) = pow2 (k - 54) * 2 := by
    rw [show k - 53 = k - 54 + (1 : Nat) by omega, pow2_add, pow2_ofNat, pow_one]
  linarith [fl64_near q]

/-! ### The bit pattern -/

/-- A non-negative binary64 value is a natural number below `2^53` of units of its last place. -/
theorem exists_units {v : Rat} (hr : Rep53 v) (h0 : 0 ≤ v) :
    ∃ m : Nat, v = (m : ℚ) * pow2 (ulpExp v) ∧ m < 2 ^ 53 ∧ (m < 2 ^ 52 → ulpExp v = -1074) := by
  have hu := pow2_pos (ulpExp v)
  have hv : v = (significand v : ℚ) * pow2 (ulpExp v) := (fl64_of_rep hr).symm
  obtain ⟨m, hm⟩ : ∃ m : Nat, significand v = m := Int.eq_ofNat_of_zero_le <| by
    have hnonneg : (0 : ℚ) ≤ significand v := nonneg_of_mul_nonneg_left (hv ▸ h0) hu
    exact_mod_cast hnonneg
  rw [hm] at hv
  refine ⟨m, hv, ?_, fun hsmall => ?_⟩
  · have hlt := abs_lt_ulp v
    rw [abs_of_nonneg h0, add_comm, pow2_add, show pow2 53 = 2 ^ 53 from pow2_ofNat 53] at hlt
    exact_mod_cast lt_of_mul_lt_mul_right (hv.symm.trans_lt hlt) hu.le
  · by_contra hne
    have hbig := le_abs_significand (lt_of_le_of_ne (ulpExp_ge v) (Ne.symm hne))
    rw [hm, Nat.abs_cast] at hbig
    omega

section
variable {v : Rat} {m : Nat} (hv : v = (m : ℚ) * pow2 (ulpExp v))
include hv

theorem nonneg_of_units : 0 ≤ v := by
  rw [hv]
  exact mul_nonneg (Nat.cast_nonneg m) (pow2_pos _).le

theorem natAbs_num_units : (v / pow2 (ulpExp v)).num.natAbs = m := by
  have hdiv : v / pow2 (ulpExp v) = (m : ℚ) := (div_eq_iff (pow2_pos _).ne').2 hv
  rw [hdiv, Rat.num_natCast, Int.natAbs_natCast]

/-- A subnormal value, or zero, is its own fraction field. -/
theorem bits64_toNat_subnormal (hm : m < 2 ^ 52) : (bits64 v).toNat = m := by
  have hsign : ¬ v < 0 := not_lt.2 (nonneg_of_units hv)
  simp only [bits64, natAbs_num_units hv, hsign, if_pos hm, if_false, BitVec.toNat_ofNat]
  omega

/-- A normal value below `2^1024` has its exponent, biased, above its fraction. -/
theorem bits64_toNat_normal (hm : 2 ^ 52 ≤ m) (hm' : m < 2 ^ 53) (he : ulpExp v ≤ 971) :
    (bits64 v).toNat = (ulpExp v + 1075).toNat * 2 ^ 52 + (m - 2 ^ 52) := by
  have hsign : ¬ v < 0 := not_lt.2 (nonneg_of_units hv)
  have hexp : (ulpExp v + 1075).toNat ≤ 2046 := by omega
  simp only [bits64, natAbs_num_units hv, hsign, if_neg (not_lt.2 hm), if_false, BitVec.toNat_ofNat]
  omega

end

/-- The value of a pattern with the sign bit clear, by its exponent and fraction fields. -/
theorem value64_of_fields {b : Bits64} {ex frac : Nat} (hb : b.toNat = ex * 2 ^ 52 + frac) (hf : frac < 2 ^ 52)
    (he : ex < 2 ^ 11) :
    value64 b = if ex = 0 then (frac : ℚ) * pow2 (-1074) else ((2 ^ 52 + frac : Nat) : ℚ) * pow2 (ex - 1075) := by
  have hfrac : (b.extractLsb' 0 52).toNat = frac := by
    rw [BitVec.extractLsb'_toNat, hb, Nat.shiftRight_zero]
    omega
  have hex : (b.extractLsb' 52 11).toNat = ex := by
    rw [BitVec.extractLsb'_toNat, hb, Nat.shiftRight_eq_div_pow]
    omega
  have hsign : b.getLsbD 63 = false := Nat.testBit_lt_two_pow (by omega)
  simp only [value64, hfrac, hex, hsign, Bool.false_eq_true, if_false]

/-- The pattern of a non-negative binary64 value below `2^1024` has that value. -/
theorem value64_bits64 {v : Rat} (hr : Rep53 v) (h0 : 0 ≤ v) (hlt : v < pow2 1024) : value64 (bits64 v) = v := by
  obtain ⟨m, hv, hm, hsub⟩ := exists_units hr h0
  have hexp := ulpExp_le (q := v) (k := 1024) (by norm_num) (by rwa [abs_of_nonneg h0])
  rcases lt_or_ge m (2 ^ 52) with hsmall | hbig
  · rw [value64_of_fields (ex := 0) (by rw [bits64_toNat_subnormal hv hsmall]; omega) hsmall (by norm_num), if_pos rfl,
      ← hsub hsmall, ← hv]
  · have hge := ulpExp_ge v
    have hfrac : m - 2 ^ 52 < 2 ^ 52 := by omega
    rw [value64_of_fields (bits64_toNat_normal hv hbig hm (by omega)) hfrac (by omega), if_neg (by omega),
      Nat.add_sub_cancel' hbig, Int.toNat_of_nonneg (by omega), add_sub_cancel_right, ← hv]

/-- The pattern of a value below `2^23` is below that of `2^23` (R25). -/
theorem bits64_lt {v : Rat} (hr : Rep53 v) (h0 : 0 ≤ v) (hlt : v < pow2 23) :
    (bits64 v).toNat < 0x4160000000000000 := by
  obtain ⟨m, hv, hm, _⟩ := exists_units hr h0
  have hexp := ulpExp_le (q := v) (k := 23) (by norm_num) (by rwa [abs_of_nonneg h0])
  rcases lt_or_ge m (2 ^ 52) with hsmall | hbig
  · rw [bits64_toNat_subnormal hv hsmall]
    omega
  · rw [bits64_toNat_normal hv hbig hm (by omega)]
    omega

end Sys2Proof.Machine
end

