-- ==== Sys2Proof/Proofs/ScoreBounds.lean ====
section
/-! SUPPORT. The balance term of rule 4 through its roundings (R75), the bounds on the four terms and on SCORE (R76,
R77), and what SCORE depends on (R71). -/

namespace Sys2Proof.Machine

/-! ### The balance term -/

/-- T4 from the rounded percentage `q` of dark modules: the last three operations of R75. -/
def balanceOf (q : Rat) : Rat := fl64 (fl64 (|fl64 (q - 50)| / 5) * 10)

theorem balanceTerm_eq (b : Config.BalDiv) (n d : Nat) : balanceTerm b n d = balanceOf (balanceQuotient b n d) := by
  rw [balanceTerm, absR_eq_abs, balanceOf]

section
variable {q : Rat}

theorem balanceOf_nonneg (q : Rat) : 0 ≤ balanceOf q :=
  fl64_nonneg (mul_nonneg (fl64_nonneg (div_nonneg (abs_nonneg _) (by norm_num))) (by norm_num))

/-- A percentage at least `2^-10` inside 0..100 gives less than 100: the bound is carried through the three roundings,
each at a binary fraction. -/
theorem balanceOf_lt (h : |q - 50| ≤ 51199 / 2 ^ 10) : balanceOf q < 100 := by
  have hdiff : |fl64 (q - 50)| ≤ 51199 / 2 ^ 10 :=
    abs_fl64_le (by exact_mod_cast rep53_dyadic 51199 10 (by norm_num) (by norm_num)) h
  have hfifth : fl64 (|fl64 (q - 50)| / 5) ≤ 81919 / 2 ^ 13 :=
    fl64_le_of_le (by exact_mod_cast rep53_dyadic 81919 13 (by norm_num) (by norm_num)) (by linarith)
  have hten : balanceOf q ≤ 819190 / 2 ^ 13 :=
    fl64_le_of_le (by exact_mod_cast rep53_dyadic 819190 13 (by norm_num) (by norm_num)) (by linarith)
  linarith

/-- A percentage at least `2^-11` off 50 gives more than 0. -/
theorem balanceOf_pos (h : 1 / 2 ^ 11 ≤ |q - 50|) : 0 < balanceOf q := by
  have hdiff : 1 / 2 ^ 11 ≤ |fl64 (q - 50)| :=
    le_abs_fl64 (by exact_mod_cast rep53_dyadic 1 11 (by norm_num) (by norm_num)) h
  have hfifth : 1 / 2 ^ 14 ≤ fl64 (|fl64 (q - 50)| / 5) :=
    le_fl64_of_le (by exact_mod_cast rep53_dyadic 1 14 (by norm_num) (by norm_num)) (by linarith)
  have hten : 1 / 2 ^ 14 ≤ balanceOf q :=
    le_fl64_of_le (by exact_mod_cast rep53_dyadic 1 14 (by norm_num) (by norm_num)) (by linarith)
  linarith

theorem fl64_zero : fl64 0 = 0 := fl64_of_rep rep53_zero

theorem balanceOf_fifty : balanceOf 50 = 0 := by
  simp [balanceOf, fl64_zero]

/-- The rounding error of a percentage. -/
theorem fl64_error_percentage (h : |q| < 128) : |fl64 q - q| ≤ 1 / 2 ^ 40 := by
  have h7 : pow2 7 = 128 := (pow2_ofNat 7).trans (by norm_num)
  refine (fl64_error (k := 7) (by norm_num) (h7 ▸ h)).trans ?_
  rw [pow2_eq_zpow]
  norm_num

end

section
variable {n d : Nat} (hn : 1 ≤ n) (hn' : n ≤ 255) (hd : d ≤ n * n)
include hn hn' hd

omit hn in
theorem fl64_hundredfold : fl64 (100 * (d : ℚ)) = 100 * (d : ℚ) := by
  have hsq : n * n ≤ 255 * 255 := Nat.mul_le_mul hn' hn'
  exact_mod_cast fl64_natCast (k := 100 * d) (by omega)

omit hn' in
theorem percentage_le : 100 * (d : ℚ) / (n * n) ≤ 100 := by
  have hpos : (0 : ℚ) < n * n := by exact_mod_cast Nat.mul_pos hn hn
  have hall : (d : ℚ) ≤ n * n := by exact_mod_cast hd
  rw [div_le_iff₀ hpos]
  linarith

/-- The first division of `BAL_DIV = successive` gives at most `100 * 255`, so it is off by little. -/
theorem rowQuotient_near : |fl64 (100 * (d : ℚ) / n) - 100 * d / n| ≤ 1 / 2 ^ 39 := by
  have hpos : (0 : ℚ) < n := by exact_mod_cast hn
  have hbig : (n : ℚ) ≤ 255 := by exact_mod_cast hn'
  have hall : (d : ℚ) ≤ n * n := by exact_mod_cast hd
  have hle : 100 * (d : ℚ) / n ≤ 25500 := by
    rw [div_le_iff₀ hpos]
    nlinarith
  have h15 : pow2 15 = 32768 := (pow2_ofNat 15).trans (by norm_num)
  refine (fl64_error (k := 15) (by norm_num) ?_).trans ?_
  · rw [abs_of_nonneg (by positivity), h15]
    linarith
  · rw [pow2_eq_zpow]
    norm_num

/-- In both settings the rounded percentage is within `2^-30` of the exact one. -/
theorem balanceQuotient_near (b : Config.BalDiv) :
    |balanceQuotient b n d - 100 * d / (n * n)| ≤ 1 / 2 ^ 30 := by
  have hone : (1 : ℚ) ≤ n := by exact_mod_cast hn
  have hexact := percentage_le hn hd
  have hnonneg : 0 ≤ 100 * (d : ℚ) / (n * n) := by positivity
  cases b with
  | single =>
    rw [balanceQuotient_single, fl64_hundredfold hn' hd]
    have hround := fl64_error_percentage (q := 100 * (d : ℚ) / (n * n)) (by rw [abs_of_nonneg hnonneg]; linarith)
    linarith
  | successive =>
    rw [balanceQuotient_successive, fl64_hundredfold hn' hd]
    have hfirst : |fl64 (100 * (d : ℚ) / n) / n - 100 * d / (n * n)| ≤ 1 / 2 ^ 39 := by
      rw [← div_div, ← sub_div, abs_div, abs_of_pos (show (0 : ℚ) < n by linarith), div_le_iff₀ (by linarith)]
      exact (rowQuotient_near hn hn' hd).trans (le_mul_of_one_le_right (by norm_num) hone)
    obtain ⟨hlo, hhi⟩ := abs_le.1 hfirst
    have hsecond := fl64_error_percentage (q := fl64 (100 * (d : ℚ) / n) / n) (by rw [abs_lt]; constructor <;> linarith)
    have htri := abs_sub_le (fl64 (fl64 (100 * (d : ℚ) / n) / n)) (fl64 (100 * (d : ℚ) / n) / n) (100 * d / (n * n))
    linarith

/-- An even split is 50 percent exactly, at each operation. -/
theorem balanceQuotient_of_half (b : Config.BalDiv) (h : 2 * d = n * n) : balanceQuotient b n d = 50 := by
  have hpos : (n : ℚ) ≠ 0 := by exact_mod_cast (show n ≠ 0 by omega)
  have hhalf : 100 * (d : ℚ) = 50 * (n * n) := by
    have hcast : 2 * (d : ℚ) = n * n := by exact_mod_cast h
    linarith
  have h50 : fl64 50 = 50 := by exact_mod_cast fl64_natCast (k := 50) (by norm_num)
  cases b with
  | single =>
    rw [balanceQuotient_single, fl64_hundredfold hn' hd, hhalf, mul_div_cancel_right₀ _ (mul_ne_zero hpos hpos), h50]
  | successive =>
    have hrow : fl64 (50 * (n : ℚ)) = 50 * n := by exact_mod_cast fl64_natCast (k := 50 * n) (by omega)
    rw [balanceQuotient_successive, fl64_hundredfold hn' hd, hhalf, ← mul_assoc, mul_div_cancel_right₀ _ hpos, hrow,
      mul_div_cancel_right₀ _ hpos, h50]

theorem balanceTerm_lt (b : Config.BalDiv) (h0 : d ≠ 0) (h1 : d ≠ n * n) : balanceTerm b n d < 100 := by
  obtain ⟨hbelow, habove⟩ := abs_le.1 (balanceQuotient_near hn hn' hd b)
  have hpos : (0 : ℚ) < n * n := by exact_mod_cast Nat.mul_pos hn hn
  have hsq : (n : ℚ) * n ≤ 65025 := by exact_mod_cast Nat.mul_le_mul hn' hn'
  have hlo : (1 : ℚ) ≤ d := by exact_mod_cast Nat.one_le_iff_ne_zero.2 h0
  have hhi : (d : ℚ) + 1 ≤ n * n := by exact_mod_cast lt_of_le_of_ne hd h1
  have hlow : 100 / 65025 ≤ 100 * (d : ℚ) / (n * n) := by
    rw [le_div_iff₀ hpos]
    linarith
  have hhigh : 100 * (d : ℚ) / (n * n) ≤ 100 - 100 / 65025 := by
    rw [div_le_iff₀ hpos]
    linarith
  rw [balanceTerm_eq]
  apply balanceOf_lt
  rw [abs_le]
  constructor <;> linarith

theorem balanceTerm_pos (b : Config.BalDiv) (h : 2 * d ≠ n * n) : 0 < balanceTerm b n d := by
  obtain ⟨hbelow, habove⟩ := abs_le.1 (balanceQuotient_near hn hn' hd b)
  have hpos : (0 : ℚ) < n * n := by exact_mod_cast Nat.mul_pos hn hn
  have hsq : (n : ℚ) * n ≤ 65025 := by exact_mod_cast Nat.mul_le_mul hn' hn'
  rw [balanceTerm_eq]
  apply balanceOf_pos
  rcases Nat.lt_or_gt_of_ne h with hlt | hgt
  · have hless : 2 * (d : ℚ) + 1 ≤ n * n := by exact_mod_cast hlt
    have hoff : 100 * (d : ℚ) / (n * n) ≤ 50 - 50 / 65025 := by
      rw [div_le_iff₀ hpos]
      linarith
    rw [abs_sub_comm]
    exact le_trans (by linarith) (le_abs_self _)
  · have hmore : (n : ℚ) * n + 1 ≤ 2 * d := by exact_mod_cast hgt
    have hoff : 50 + 50 / 65025 ≤ 100 * (d : ℚ) / (n * n) := by
      rw [le_div_iff₀ hpos]
      linarith
    exact le_trans (by linarith) (le_abs_self _)

omit hd in
/-- A port of `n * n` modules of one colour has T4 = 100, and every `n` has such a port. -/
theorem balanceTerm_of_oneColour (b : Config.BalDiv) (colour : Bool) :
    balanceTerm b n (colour.toNat * (n * n)) = 100 := by
  have hm := oneColour_replicate ⟨n, by omega⟩ colour
  have hterm := rule4_of_oneColour b hm hn
  rwa [rule4, darkCount_of_oneColour hm] at hterm

theorem balanceTerm_eq_hundred_iff (b : Config.BalDiv) : balanceTerm b n d = 100 ↔ d = 0 ∨ d = n * n := by
  constructor
  · intro h
    by_contra hc
    obtain ⟨h0, h1⟩ := not_or.1 hc
    exact absurd h (balanceTerm_lt hn hn' hd b h0 h1).ne
  · rintro (rfl | rfl)
    · simpa using balanceTerm_of_oneColour hn hn' b false
    · simpa using balanceTerm_of_oneColour hn hn' b true

theorem balanceTerm_eq_zero_iff (b : Config.BalDiv) : balanceTerm b n d = 0 ↔ 2 * d = n * n := by
  constructor
  · intro h
    by_contra hc
    exact absurd h (balanceTerm_pos hn hn' hd b hc).ne'
  · intro h
    rw [balanceTerm_eq, balanceQuotient_of_half hn hn' hd b h, balanceOf_fifty]

theorem balanceTerm_le (b : Config.BalDiv) : balanceTerm b n d ≤ 100 := by
  by_cases h : d = 0 ∨ d = n * n
  · exact ((balanceTerm_eq_hundred_iff hn hn' hd b).2 h).le
  · obtain ⟨h0, h1⟩ := not_or.1 h
    exact (balanceTerm_lt hn hn' hd b h0 h1).le

end

theorem balanceTerm_nonneg (b : Config.BalDiv) (n d : Nat) : 0 ≤ balanceTerm b n d :=
  balanceTerm_eq b n d ▸ balanceOf_nonneg _

/-- Settles O26: off the two uniform counts and off the even split, the exact percentage is `50/65025` or more away from
the value in question, far more than the roundings move it; at those counts every operation is exact. -/
theorem balanceTermExactFacts : Obligations.BalanceTermExactFacts := by
  unfold Obligations.BalanceTermExactFacts
  exact fun b n d hn hn' hd => ⟨balanceTerm_eq_hundred_iff hn hn' hd b, balanceTerm_eq_zero_iff hn hn' hd b,
    balanceTerm_nonneg b n d, balanceTerm_le hn hn' hd b⟩

/-! ### The integer terms -/

theorem gridSum_mono {rows cols : Nat} {f g : Nat → Nat → Nat} (h : ∀ r c, r < rows → c < cols → f r c ≤ g r c) :
    gridSum rows cols f ≤ gridSum rows cols g := by
  rw [gridSum_eq_sum, gridSum_eq_sum]
  exact Finset.sum_le_sum fun r hr => Finset.sum_le_sum fun c hc =>
    h r c (Finset.mem_range.1 hr) (Finset.mem_range.1 hc)

theorem gridSum_ite_le (rows cols k : Nat) (p : Nat → Nat → Prop) [∀ r c, Decidable (p r c)] :
    gridSum rows cols (fun r c => if p r c then k else 0) ≤ rows * cols * k :=
  gridSum_le fun r c _ _ => by split <;> omega

/-- The inner modules of an `n * n` grid are `(n-2)^2`. -/
theorem gridSum_inner (n k : Nat) :
    gridSum n n (fun r c => if (0 < r ∧ r + 1 < n) ∧ 0 < c ∧ c + 1 < n then k else 0) = k * (n - 2) ^ 2 := by
  have hset : ((Finset.range n ×ˢ Finset.range n).filter fun q => (0 < q.1 ∧ q.1 + 1 < n) ∧ 0 < q.2 ∧ q.2 + 1 < n)
      = Finset.Ioo 0 (n - 1) ×ˢ Finset.Ioo 0 (n - 1) := by
    ext q
    simp only [Finset.mem_filter, Finset.mem_product, Finset.mem_range, Finset.mem_Ioo]
    omega
  rw [gridSum_ite, hset, Finset.card_product, Nat.card_Ioo, sq]
  rfl

section
variable (m : PortMatrix)

/-- Only inner modules add, and at most 6 each. -/
theorem rule1_le : rule1 m ≤ 6 * (moduleCount m - 2) ^ 2 := by
  rw [← gridSum_inner, rule1]
  refine gridSum_mono fun r c hr hc => ?_
  have hle := sameNeighbours_le m r c
  by_cases hinner : (0 < r ∧ r + 1 < moduleCount m) ∧ 0 < c ∧ c + 1 < moduleCount m
  · rw [if_pos hinner]
    split <;> omega
  · have hedge : sameNeighbours m r c ≤ 5 := sameNeighbours_le_of_edge (by omega)
    rw [if_neg (by omega)]
    exact Nat.zero_le _

theorem rule2_le : rule2 m ≤ 3 * (moduleCount m - 1) ^ 2 := by
  rw [rule2, sq, mul_comm 3]
  exact gridSum_ite_le _ _ _ _

theorem rule3_le : rule3 m ≤ 80 * moduleCount m * (moduleCount m - 6) := by
  calc rule3 m ≤ moduleCount m * (moduleCount m - 6) * 40 + moduleCount m * (moduleCount m - 6) * 40 :=
        Nat.add_le_add (gridSum_ite_le _ _ _ _) (gridSum_ite_le _ _ _ _)
    _ = 80 * moduleCount m * (moduleCount m - 6) := by ring

theorem dvd_rule3 : 40 ∣ rule3 m := by
  rw [rule3, gridSum_ite, gridSum_ite]
  exact dvd_add (dvd_mul_right _ _) (dvd_mul_right _ _)

/-- The bounds at the largest port, `n = 255`. -/
theorem rules_sum_le : rule1 m + rule2 m + rule3 m ≤ 5657202 := by
  have hn := moduleCount_le m
  have h1 : 6 * (moduleCount m - 2) ^ 2 ≤ 6 * 253 ^ 2 := Nat.mul_le_mul_left 6 (Nat.pow_le_pow_left (by omega) 2)
  have h2 : 3 * (moduleCount m - 1) ^ 2 ≤ 3 * 254 ^ 2 := Nat.mul_le_mul_left 3 (Nat.pow_le_pow_left (by omega) 2)
  have h3 : 80 * moduleCount m * (moduleCount m - 6) ≤ 80 * 255 * 249 := Nat.mul_le_mul (by omega) (by omega)
  calc rule1 m + rule2 m + rule3 m ≤ 6 * 253 ^ 2 + 3 * 254 ^ 2 + 80 * 255 * 249 :=
        Nat.add_le_add (Nat.add_le_add ((rule1_le m).trans h1) ((rule2_le m).trans h2)) ((rule3_le m).trans h3)
    _ = 5657202 := by norm_num

/-! ### The score -/

theorem rule4_nonneg (b : Config.BalDiv) : 0 ≤ rule4 b m := balanceTerm_nonneg b _ _

theorem fl64_rules_sum : fl64 ((rule1 m + rule2 m + rule3 m : ℕ) : ℚ) = ((rule1 m + rule2 m + rule3 m : ℕ) : ℚ) :=
  fl64_natCast ((rules_sum_le m).trans_lt (by norm_num))

theorem scoreValue_eq (b : Config.BalDiv) :
    scoreValue b m = fl64 (((rule1 m + rule2 m + rule3 m : ℕ) : ℚ) + rule4 b m) := by
  rw [scoreValue, accumulate, fl64_rules_sum]

theorem scoreValue_nonneg (b : Config.BalDiv) : 0 ≤ scoreValue b m :=
  scoreValue_eq m b ▸ fl64_nonneg (add_nonneg (Nat.cast_nonneg _) (rule4_nonneg m b))

variable {m} (hm : 1 ≤ moduleCount m) (b : Config.BalDiv)
include hm

theorem rule4_le : rule4 b m ≤ 100 := balanceTerm_le hm (moduleCount_le m) (darkCount_le m) b

theorem scoreValue_lt : scoreValue b m < 2 ^ 23 := by
  have hsum : ((rule1 m + rule2 m + rule3 m : ℕ) : ℚ) ≤ 5657202 := by exact_mod_cast rules_sum_le m
  have hrep : Rep53 5657302 := by simpa using rep53_dyadic 5657302 0 (by norm_num) (by norm_num)
  have hle : scoreValue b m ≤ 5657302 :=
    scoreValue_eq m b ▸ fl64_le_of_le hrep (by linarith [rule4_le hm b])
  exact hle.trans_lt (by norm_num)

theorem scoreBits_lt : (scoreBits b m).toNat < 0x4160000000000000 :=
  bits64_lt (rep53_fl64 _) (scoreValue_nonneg m b) ((scoreValue_lt hm b).trans_eq (pow2_ofNat 23).symm)

theorem value64_scoreBits : value64 (scoreBits b m) = scoreValue b m := by
  have h1024 : pow2 23 < pow2 1024 := by
    rw [pow2_eq_zpow, pow2_eq_zpow]
    exact zpow_lt_zpow_right₀ (by norm_num) (by norm_num)
  have hlt : scoreValue b m < pow2 23 := (scoreValue_lt hm b).trans_eq (pow2_ofNat 23).symm
  exact value64_bits64 (rep53_fl64 _) (scoreValue_nonneg m b) (hlt.trans h1024)

end

/-- Settles O28: the terms' bounds are those of their grids, and the sum at the largest port is well below `2^23`. -/
theorem penaltyBounds : Obligations.PenaltyBounds := by
  unfold Obligations.PenaltyBounds
  exact fun b m hm => ⟨rule1_le m, rule2_le m, rule3_le m, dvd_rule3 m, rule4_nonneg m b, rule4_le hm b,
    (rules_sum_le m).trans_lt (by norm_num), scoreValue_nonneg m b, scoreValue_lt hm b, scoreBits_lt hm b⟩

/-- Settles O27: an integer below `2^53` is its own rounding, and the pattern of a value below `2^1024` is read back. -/
theorem scoreRoundsOnce : Obligations.ScoreRoundsOnce := by
  unfold Obligations.ScoreRoundsOnce
  exact fun b m hm => ⟨scoreValue_eq m b, fl64_rules_sum m, value64_scoreBits hm b⟩

/-- Settles O22: of the eight offsets, three leave the matrix. -/
theorem edgeModulesAddNothingToRuleOne : Obligations.EdgeModulesAddNothingToRuleOne := by
  unfold Obligations.EdgeModulesAddNothingToRuleOne
  exact fun m r c _ _ h => sameNeighbours_le_of_edge h

/-- Settles O29: the terms of a one-coloured port and their exact sum; the two patterns and values at `n = 21` and 1 are
that sum's. -/
theorem uniformMatrixScore : Obligations.UniformMatrixScore := by
  unfold Obligations.UniformMatrixScore
  intro b m colour hm
  refine ⟨fun h => ?_, fun h => ?_, fun h => ?_⟩
  · have hpos : 1 ≤ moduleCount m := by omega
    exact ⟨rule1_of_oneColour hm, rule2_of_oneColour hm, rule3_of_oneColour hm, rule4_of_oneColour b hm hpos,
      scoreValue_of_oneColour b hm hpos⟩
  · rw [scoreBits, scoreValue_of_oneColour b hm (by omega), h]
    decide +kernel
  · rw [scoreValue_of_oneColour b hm h.ge, h]
    norm_num

/-! ### EVAL -/

/-- The count and the modules are all a port is. -/
theorem portMatrix_ext {m m' : PortMatrix} (hn : moduleCount m = moduleCount m')
    (hd : ∀ r c, r < moduleCount m → c < moduleCount m → darkAt m r c = darkAt m' r c) : m = m' := by
  obtain ⟨n, rows⟩ := m
  obtain ⟨n', rows'⟩ := m'
  obtain rfl : n = n' := Fin.ext hn
  have hrows : rows = rows' := by
    refine Vector.ext fun r hr => Vector.ext fun c hc => ?_
    simpa [darkAt, hr, hc] using hd r c hr hc
  rw [hrows]

/-- Settles O30: ports that agree in count and modules are equal, and EVAL's next state names nothing else. -/
theorem evalDependsOnlyOnThePort : Obligations.EvalDependsOnlyOnThePort := by
  unfold Obligations.EvalDependsOnlyOnThePort
  intro s u hb hn hne hd
  have hport : s.matrix = u.matrix := portMatrix_ext hn hd
  refine ⟨_, _, exec_eval_of_modules hne, exec_eval_of_modules (hport ▸ hne), ?_, rfl, rfl⟩
  simp [hb, hport]

theorem ExecResult.scoreLegal {i : Instr} {s t : State} (h : ExecResult i s t) (hs : ScoreLegal s.score) :
    ScoreLegal t.score := by
  cases h with
  | fault | size | result => exact hs
  | score _ hn =>
    rintro v ⟨⟩
    exact scoreBits_lt (Nat.one_le_iff_ne_zero.2 hn) _

theorem perform_keeps_scoreLegal {s t : State} (hs : ScoreLegal s.score) (h : perform s = .next t) :
    ScoreLegal t.score := by
  obtain ⟨p, _, ⟨_, _, rfl⟩ | ⟨i, _, hexec⟩⟩ := perform_cases h
  · exact hs
  · exact hexec.scoreLegal hs

/-- Settles O57: reset empties SCORE, EVAL writes a pattern within its bound, and no other operation writes it. -/
theorem stepKeepsScoreLegal : Obligations.StepKeepsScoreLegal := by
  unfold Obligations.StepKeepsScoreLegal
  intro s t hs h
  cases step_cases h with
  | reset => rintro v ⟨⟩
  | idle => exact hs
  | core _ _ _ ht => exact perform_keeps_scoreLegal (s := popTurn s) hs ht
  | host _ _ _ ht =>
    obtain ⟨_, _, hscore, _⟩ := ht.frame
    exact hscore ▸ hs

end Sys2Proof.Machine
end
